-- ==== Sys2Proof/Word.lean ====
section
/-! DEFINITION. The value types of the LCCB block: bytes, 64-bit words, the 256-byte payload bus. -/

namespace Sys2Proof

/-- One byte of a block (R52). -/
abbrev Byte := BitVec 8

/-- A 64-bit value: a Register Frame (R80), an ENCODE operand (R72), a counter (R24). -/
abbrev Word := BitVec 64

/-- The 2048-bit payload bus: byte `k` (0..255) stands at bits `8k+7 : 8k` (R55, R72, R76). -/
abbrev Payload := BitVec 2048

/-- The fixed block size in bytes (R6, BLOCK_SIZE). -/
abbrev blockSize : Nat := 256

/-- MAXC = 2^64-1, the largest value of a 64-bit counter (42_cache.md, its opening). -/
abbrev maxCount : Word := 0xFFFFFFFFFFFFFFFF#64

end Sys2Proof
end

