-- ==== Sys2Proof/Config.lean ====
section
/-! DEFINITION. What an implementation fixes (R6), and the free values of the response fields a command does not
drive (R188). -/

namespace Sys2Proof

/-- CACHE_N - 1. CACHE_N is an OPEN parameter with CACHE_N ≥ 1 (R6, D5); nothing is known of this number but that it
is a natural number. -/
opaque Config.cacheNMinusOne : Nat

/-- CACHE_N, the number of slots of the block that comes out of reset (R6, R30): any number from 1 up.
Every rule of the machine reads the number of slots off the slot array itself, so a statement over all states holds for
every CACHE_N. -/
def Config.cacheN : Nat := Config.cacheNMinusOne + 1

/-- SLOT_INDEX_WIDTH = ceil(log2(n)), at least 1, for a cache of `n` slots (R6, D26). -/
def Config.slotIndexWidth (n : Nat) : Nat :=
  if n ≤ 2 then 1 else Nat.log2 (n - 1) + 1

/-- MAX_DEVICES, a constant of the surrounding software that the block does not use (R6, C2). -/
def Config.maxDevices : Nat := 16

/-- LATENCY - 1. LATENCY is an OPEN parameter, any positive finite number of cycles per command (R226). -/
opaque Config.latencyMinusOne : Nat

/-- LATENCY, which no rule reads: the model has no time (R226, I7). -/
def Config.latency : Nat := Config.latencyMinusOne + 1

/-! A response field that the command's rule does not drive is unspecified, and two responses need not agree (R188,
D21, I3). Each such field is a free draw: one of the constants below, applied to the number of responses driven so far
(`State.draws`). They have no body, so nothing can be proved of their values. -/

/-- Free value of an undriven `rsp.flag` (R188). -/
opaque Config.undrivenFlag : Nat → Bool
/-- Free value of an undriven `rsp.frame` (R188). -/
opaque Config.undrivenFrame : Nat → Word
/-- Free value of an undriven `rsp.b0` (R188). -/
opaque Config.undrivenB0 : Nat → BitVec 4
/-- Free value of an undriven `rsp.b1` (R188). -/
opaque Config.undrivenB1 : Nat → BitVec 4
/-- Free value of an undriven `rsp.c0` (R188). -/
opaque Config.undrivenC0 : Nat → BitVec 8
/-- Free value of an undriven `rsp.c1` (R188). -/
opaque Config.undrivenC1 : Nat → BitVec 8
/-- Free value of an undriven `rsp.c2` (R188). -/
opaque Config.undrivenC2 : Nat → BitVec 8
/-- Free value of an undriven `rsp.d0` (R188). -/
opaque Config.undrivenD0 : Nat → BitVec 16
/-- Free value of an undriven `rsp.d1` (R188). -/
opaque Config.undrivenD1 : Nat → BitVec 16
/-- Free value of an undriven `rsp.payload` (R188). -/
opaque Config.undrivenPayload : Nat → Payload
/-- Free value of an undriven `rsp.slot` (R188), before it is cut to SLOT_INDEX_WIDTH bits. -/
opaque Config.undrivenSlot : Nat → Nat
/-- Free value of an undriven `rsp.hits` (R188). -/
opaque Config.undrivenHits : Nat → Word
/-- Free value of an undriven `rsp.misses` (R188). -/
opaque Config.undrivenMisses : Nat → Word

/-- The OPEN controller constants of R6 and R83, each 0..255. No rule of the block reads them; they are an argument of
the pseudo-instructions (R88), so that a claim about those holds for every admissible choice. -/
structure FrameConsts where
  opBlockXfer : BitVec 8
  opPowerOn   : BitVec 8
  opPowerOff  : BitVec 8
  opDevprobe  : BitVec 8
  opDevinit   : BitVec 8
  xferRead    : BitVec 8
  xferWrite   : BitVec 8
  deriving DecidableEq, Repr

/-- All that R83 lets a model assume: the five opcodes are pairwise distinct and so are the two directions. -/
abbrev FrameConsts.admissible (c : FrameConsts) : Prop :=
  [c.opBlockXfer, c.opPowerOn, c.opPowerOff, c.opDevprobe, c.opDevinit].Nodup ∧ c.xferRead ≠ c.xferWrite

end Sys2Proof
end

