-- ==== Sys2Proof/Syntax.lean ====
section
/-! DEFINITION. The request record of the port (R72), the key (R11), and the nine commands as an inductive type, one
constructor per row of the opcode table (R74). -/

namespace Sys2Proof

/-- A key: the triple (dev, sector, block) that names a block (R11), of widths 8, 16 and 16 (R6, D11). -/
structure Key where
  dev    : BitVec 8
  sector : BitVec 16
  block  : BitVec 16
  deriving DecidableEq, Repr

/-- A request: every field of the REQ format at once, as a record of parallel operand fields (R71, R72). -/
structure Request where
  op      : BitVec 4
  frame   : Word
  b0      : Word
  b1      : Word
  c0      : Word
  c1      : Word
  c2      : Word
  d0      : Word
  d1      : Word
  dev     : BitVec 8
  sector  : BitVec 16
  block   : BitVec 16
  payload : Payload
  offset  : BitVec 8
  len     : BitVec 9
  deriving DecidableEq, Repr

/-- A command with exactly the operands its rule reads (R72, R74). -/
inductive Instr where
  /-- ENCODE, op 0x1 (R100): seven 64-bit operands. -/
  | encode (b0 b1 c0 c1 c2 d0 d1 : Word)
  /-- DECODE, op 0x2 (R105). -/
  | decode (frame : Word)
  /-- ISOK, op 0x3 (R110). -/
  | isok (frame : Word)
  /-- CINIT, op 0x4 (R135). -/
  | cinit
  /-- LOOKUP, op 0x5 (R140). -/
  | lookup (key : Key)
  /-- INSERT, op 0x6 (R145). -/
  | insert (key : Key) (payload : Payload)
  /-- PATCH, op 0x7 (R150). -/
  | patch (key : Key) (offset : BitVec 8) (len : BitVec 9) (payload : Payload)
  /-- STATS, op 0x8 (R153). -/
  | stats
  /-- CSHUT, op 0x9 (R156). -/
  | cshut
  deriving DecidableEq, Repr

end Sys2Proof
end

