-- ==== Sys2Proof/WellFormed.lean ====
section
/-! DEFINITION. Which requests are commands: the one check the block makes of a request's form is that its op is
assigned (R74, R75). Every term of `Instr` is a command, since each operand's type has its field's width (R73), so the
check stands on requests. -/

namespace Sys2Proof

/-- The op values that name a command: 0x1 to 0x9. Values 0x0 and 0xA to 0xF are reserved (R74, R75). -/
def opAssigned (op : BitVec 4) : Bool :=
  decide (1 ≤ op.toNat) && decide (op.toNat ≤ 9)

/-- A request is well formed when its op is assigned. No other field is checked: R71 gives no must-be-zero field, and a
key operand cannot be out of range (R72). -/
def Request.wellFormed (r : Request) : Bool :=
  opAssigned r.op

end Sys2Proof
end

