-- ==== Sys2Proof/Decode.lean ====
section
/-! DEFINITION. The decoder from requests to commands (R70, R74), the encoder back, and the model's own flat numbering
of a request's bits (assumption 3), which the opcode table's words are read through. -/

namespace Sys2Proof

/-- Why a request is no command. -/
inductive DecodeReject where
  /-- The op is reserved: 0x0 or 0xA to 0xF (R75). The step answers it with the ILLEGAL_OP response (R182). -/
  | reservedOp (op : BitVec 4)
  deriving DecidableEq, Repr

/-- The key operand of a request (R73). -/
def Request.key (r : Request) : Key :=
  { dev := r.dev, sector := r.sector, block := r.block }

/-- Which command a request is: `req.op` alone tells (R70, R74), and only the fields its rule names are taken (R71). -/
def decodeRequest (r : Request) : Except DecodeReject Instr :=
  match r.op.toNat with
  | 1 => .ok (.encode r.b0 r.b1 r.c0 r.c1 r.c2 r.d0 r.d1)
  | 2 => .ok (.decode r.frame)
  | 3 => .ok (.isok r.frame)
  | 4 => .ok .cinit
  | 5 => .ok (.lookup r.key)
  | 6 => .ok (.insert r.key r.payload)
  | 7 => .ok (.patch r.key r.offset r.len r.payload)
  | 8 => .ok .stats
  | 9 => .ok .cshut
  | _ => .error (.reservedOp r.op)

/-- The request with every field zero. Its op 0x0 is reserved, so it is no command (R75). -/
def Request.zero : Request :=
  { op := 0, frame := 0, b0 := 0, b1 := 0, c0 := 0, c1 := 0, c2 := 0, d0 := 0, d1 := 0, dev := 0, sector := 0,
    block := 0, payload := 0, offset := 0, len := 0 }

/-- The op value of each command (R74). -/
def opcodeOf : Instr → BitVec 4
  | .encode _ _ _ _ _ _ _ => 0x1#4
  | .decode _ => 0x2#4
  | .isok _ => 0x3#4
  | .cinit => 0x4#4
  | .lookup _ => 0x5#4
  | .insert _ _ => 0x6#4
  | .patch _ _ _ _ => 0x7#4
  | .stats => 0x8#4
  | .cshut => 0x9#4

/-- The request an assembler makes of a command, the ignored fields set to zero (R71, R87). -/
def encodeRequest (i : Instr) : Request :=
  match i with
  | .encode b0 b1 c0 c1 c2 d0 d1 =>
    { Request.zero with op := opcodeOf i, b0 := b0, b1 := b1, c0 := c0, c1 := c1, c2 := c2, d0 := d0, d1 := d1 }
  | .decode frame => { Request.zero with op := opcodeOf i, frame := frame }
  | .isok frame => { Request.zero with op := opcodeOf i, frame := frame }
  | .cinit => { Request.zero with op := opcodeOf i }
  | .lookup k => { Request.zero with op := opcodeOf i, dev := k.dev, sector := k.sector, block := k.block }
  | .insert k p =>
    { Request.zero with op := opcodeOf i, dev := k.dev, sector := k.sector, block := k.block, payload := p }
  | .patch k offset len p =>
    { Request.zero with
      op := opcodeOf i, dev := k.dev, sector := k.sector, block := k.block, payload := p, offset := offset, len := len }
  | .stats => { Request.zero with op := opcodeOf i }
  | .cshut => { Request.zero with op := opcodeOf i }

/-- The number of bits of all REQ fields together (R72), from `len` down to `op`: 2621. -/
abbrev requestWidth : Nat :=
  9 + 8 + 2048 + 16 + 16 + 8 + 64 + 64 + 64 + 64 + 64 + 64 + 64 + 64 + 4

/-- Reads a request out of one flat number: the fields of R72 in the order of its table, `op` in bits 3:0 (as the opcode
table has it) and each later field in the bits above. The flat layout is the model's (assumption 3). -/
def Request.ofNat (w : Nat) : Request :=
  { op      := BitVec.ofNat 4 w
    frame   := BitVec.ofNat 64 (w >>> 4)
    b0      := BitVec.ofNat 64 (w >>> 68)
    b1      := BitVec.ofNat 64 (w >>> 132)
    c0      := BitVec.ofNat 64 (w >>> 196)
    c1      := BitVec.ofNat 64 (w >>> 260)
    c2      := BitVec.ofNat 64 (w >>> 324)
    d0      := BitVec.ofNat 64 (w >>> 388)
    d1      := BitVec.ofNat 64 (w >>> 452)
    dev     := BitVec.ofNat 8 (w >>> 516)
    sector  := BitVec.ofNat 16 (w >>> 524)
    block   := BitVec.ofNat 16 (w >>> 540)
    payload := BitVec.ofNat 2048 (w >>> 556)
    offset  := BitVec.ofNat 8 (w >>> 2604)
    len     := BitVec.ofNat 9 (w >>> 2612) }

/-- The request a flat word holds. -/
def Request.ofWord (w : BitVec requestWidth) : Request :=
  Request.ofNat w.toNat

/-- The flat number of a request, the fields of R72 from `len` (most significant) down to `op` (assumption 3). -/
def Request.toWord (r : Request) : BitVec requestWidth :=
  r.len ++ r.offset ++ r.payload ++ r.block ++ r.sector ++ r.dev ++ r.d1 ++ r.d0 ++ r.c2 ++ r.c1 ++ r.c0 ++ r.b1 ++
    r.b0 ++ r.frame ++ r.op

/-- The decoder on flat numbers. -/
def decodeWord (w : BitVec requestWidth) : Except DecodeReject Instr :=
  decodeRequest (Request.ofWord w)

/-- The encoder to flat numbers. -/
def encodeWord (i : Instr) : BitVec requestWidth :=
  (encodeRequest i).toWord

/-- The request whose low `nbits` bits are those of `w` and whose other bits are zero. -/
def Request.ofTableWord (nbits w : Nat) : Request :=
  Request.ofNat (w % 2 ^ nbits)

/-- The command the decoder reads from a word of the opcode table. -/
def decodeTableWord (nbits w : Nat) : Option Instr :=
  match decodeRequest (Request.ofTableWord nbits w) with
  | .ok i => some i
  | .error _ => none

end Sys2Proof
end

