-- ==== Sys2Proof/Machine/State.lean ====
section
/-! DEFINITION. The block's state as plain data: the five control and status registers (R24), the slot array (R30), its
data bytes (R50, R52), and the port (R70, R76); the reasons a step can stop; the state after reset (R210). -/

namespace Sys2Proof.Machine

/-- STATE, 1 bit (R25). -/
inductive CacheState where
  /-- Value 0: the cache storage is not allocated. -/
  | unallocated
  /-- Value 1: the cache is allocated. -/
  | ready
  deriving DecidableEq, Repr

/-- The five error statuses (R181). -/
inductive ErrorCode where
  /-- Code 1, ILLEGAL_OP: the op is reserved. -/
  | illegalOp
  /-- Code 2, NOT_READY: a cache command other than CINIT with STATE = 0. -/
  | notReady
  /-- Code 3, ALREADY_READY: CINIT with STATE = 1. -/
  | alreadyReady
  /-- Code 4, RANGE: PATCH with offset + len > 256. -/
  | range
  /-- Code 5, OVERFLOW: a counter would pass 2^64-1. -/
  | overflow
  deriving DecidableEq, Repr

/-- One slot of the slot array, less its data bytes (R30). Those stand in `State.store`, byte `k` of slot `i` at
address `256 i + k`. -/
structure Slot where
  valid   : Bool
  key     : Key
  recency : Word
  deriving DecidableEq, Repr

/-- The data bytes of all slots (R50): a list of (address, byte) pairs, addresses strictly rising, no entry equal to
what an unlisted address reads as (`Memory.wf`, `Memory.unlisted`). -/
abbrev Memory := List Host.Cell

/-- A response: every field of the RSP format (R76). The slot index is a number below 2^SLOT_INDEX_WIDTH. -/
structure Response where
  status  : BitVec 4
  fault   : BitVec 8
  state   : BitVec 1
  flag    : Bool
  frame   : Word
  b0      : BitVec 4
  b1      : BitVec 4
  c0      : BitVec 8
  c1      : BitVec 8
  c2      : BitVec 8
  d0      : BitVec 16
  d1      : BitVec 16
  payload : Payload
  slot    : Nat
  hits    : Word
  misses  : Word
  deriving DecidableEq, Repr

/-- The response fields a command drives, beside the three that every response carries; `none` is a field the command
does not drive, which is a free draw in the response (R76, R188). -/
structure Driven where
  flag    : Option Bool := none
  frame   : Option Word := none
  b0      : Option (BitVec 4) := none
  b1      : Option (BitVec 4) := none
  c0      : Option (BitVec 8) := none
  c1      : Option (BitVec 8) := none
  c2      : Option (BitVec 8) := none
  d0      : Option (BitVec 16) := none
  d1      : Option (BitVec 16) := none
  payload : Option Payload := none
  slot    : Option Nat := none
  hits    : Option Word := none
  misses  : Option Word := none
  deriving DecidableEq, Repr

/-- What the outside does to the block (R12, R210, R220): the model's input. -/
inductive PortEvent where
  /-- The requester issues a request, having had the response to the one before (R62, R70). -/
  | request (r : Request)
  /-- The requester, or a second one, issues another request while the first is outstanding. The rules define nothing
  for it (R220, R194; assumption 6). -/
  | overlap (outstanding second : Request)
  /-- The reset event, with the request outstanding at that moment if there is one (R210; assumption 7). -/
  | reset (outstanding : Option Request)
  deriving DecidableEq, Repr

/-- The state of the block, and of the port between it and its requester. -/
structure State where
  /-- STATE (R25). -/
  state  : CacheState
  /-- GCOUNT (R27). -/
  gcount : Word
  /-- HITS (R28). -/
  hits   : Word
  /-- MISSES (R28). -/
  misses : Word
  /-- FAULT (R26). -/
  fault  : BitVec 8
  /-- The slot array (R30); its length is CACHE_N. -/
  slots  : List Slot
  /-- The data bytes of the slots (R30, R50, R52). -/
  store  : Memory
  /-- The response port: the response to the latest command, none when no command has been answered since reset (R76,
  R210). The block keeps no copy of it (R35): no command reads it. -/
  rsp    : Option Response
  /-- The model's own: what will happen at the port, earliest first (R12, R21, R62). -/
  port   : List PortEvent
  /-- The model's own: how many responses have been driven; each draws fresh free values (R188). -/
  draws  : Nat
  deriving DecidableEq, Repr

/-- Why the machine stops. The block itself has no trap and never stops (R180). -/
inductive Fault where
  /-- Raised by INSERT alone, in a state with no slots: `victim()` is undefined for N = 0, which D5 excludes (R6). Safe:
  no state of a block (CACHE_N ≥ 1) has it. -/
  | noSlots
  deriving DecidableEq, Repr

/-- What the model gives no meaning. -/
inductive Refusal where
  /-- An instruction whose arm of `exec` has no meaning yet; no arm answers so. Safe. -/
  | notModelled (mnemonic : String)
  /-- Raised by `step` on overlapping requests: the rules define nothing for them, and a model must refuse them (R220,
  R194). Safe. -/
  | overlappingRequests
  deriving DecidableEq, Repr

/-- A slot after reset: valid = 0 (R210). The other fields are unspecified there and read by no rule; the model names
zero (assumption 2). -/
def Slot.reset : Slot :=
  { valid := false, key := { dev := 0, sector := 0, block := 0 }, recency := 0 }

/-- The reset values of R24, R30 and R210 for a block of `n` slots. -/
def State.resetWith (n : Nat) : State :=
  { state := .unallocated, gcount := 0, hits := 0, misses := 0, fault := 0, slots := List.replicate n Slot.reset,
    store := [], rsp := none, port := [], draws := 0 }

/-- The machine right after reset (R210), with CACHE_N slots. -/
def State.reset : State :=
  State.resetWith Config.cacheN

end Sys2Proof.Machine
end

