-- ==== Sys2Proof/Machine/Operands.lean ====
section
/-! DEFINITION. Operand forms: the frame's fields and their assembly (R80, R81), the bytes of the payload bus (R55), and
the run a PATCH names (R57, R150). -/

namespace Sys2Proof.Machine

/-- The seven fields of a frame, as DECODE returns them (R80, R105). -/
structure FrameFields where
  b0 : BitVec 4
  b1 : BitVec 4
  c0 : BitVec 8
  c1 : BitVec 8
  c2 : BitVec 8
  d0 : BitVec 16
  d1 : BitVec 16
  deriving DecidableEq, Repr

/-- The truncation of ENCODE: each field takes the low bits of its 64-bit operand (R81, R101). -/
def truncOperands (b0 b1 c0 c1 c2 d0 d1 : Word) : FrameFields :=
  { b0 := b0.setWidth 4, b1 := b1.setWidth 4, c0 := c0.setWidth 8, c1 := c1.setWidth 8, c2 := c2.setWidth 8,
    d0 := d0.setWidth 16, d1 := d1.setWidth 16 }

/-- The frame with the given fields: their concatenation, b0 most significant (R80, R100). -/
def packFields (f : FrameFields) : Word :=
  f.b0 ++ f.b1 ++ f.c0 ++ f.c1 ++ f.c2 ++ f.d0 ++ f.d1

/-- The fields of a frame (R80, R105). -/
def unpackFields (f : Word) : FrameFields :=
  { b0 := f.extractLsb' 60 4, b1 := f.extractLsb' 56 4, c0 := f.extractLsb' 48 8, c1 := f.extractLsb' 40 8,
    c2 := f.extractLsb' 32 8, d0 := f.extractLsb' 16 16, d1 := f.extractLsb' 0 16 }

/-- Byte `k` of the payload bus: bits `8k+7 : 8k` (R55). -/
def payloadByte (p : Payload) (k : Nat) : Byte :=
  p.extractLsb' (8 * k) 8

/-- The first `n` bytes of the payload bus, byte 0 first: `payload[0 .. n-1]` (R55, R150). -/
def payloadBytes (n : Nat) (p : Payload) : List Byte :=
  (List.range n).map (payloadByte p)

/-- The payload bus that carries the given bytes, the first at byte 0 and zeros above the last (R55). -/
def payloadOfBytes (bs : List Byte) : Payload :=
  bs.foldr (fun b acc => (acc <<< 8) ||| b.setWidth 2048) 0

/-- Whether a PATCH run crosses the end of the block: `zext_10(offset) + zext_10(len) > 256` (R57, R150). Both operands
are below 2^9, so the 10-bit sum does not overflow and the sum of the numbers is the same. -/
def runCrossesEnd (offset : BitVec 8) (len : BitVec 9) : Bool :=
  decide (blockSize < offset.toNat + len.toNat)

end Sys2Proof.Machine
end

