-- ==== Sys2Proof/Machine/Flags.lean ====
section
/-! DEFINITION. Flag computations: the status codes and the FAULT bits (R181, R184), the value of STATE on the response
(R25), and the success predicate (R84, R110). -/

namespace Sys2Proof.Machine

/-- Status 0, OK (R181). -/
def statusOk : BitVec 4 := 0#4

/-- The status code of an error (R181). -/
def ErrorCode.status : ErrorCode → BitVec 4
  | .illegalOp => 1#4
  | .notReady => 2#4
  | .alreadyReady => 3#4
  | .range => 4#4
  | .overflow => 5#4

/-- The FAULT bit of an error: `1 << (code - 1)` (R26, R184). -/
def ErrorCode.faultBit (e : ErrorCode) : BitVec 8 :=
  1#8 <<< (e.status.toNat - 1)

/-- The value of STATE (R25). -/
def CacheState.bit : CacheState → BitVec 1
  | .unallocated => 0#1
  | .ready => 1#1

/-- The success predicate: both status fields are exactly 1 (R84, R110). -/
def frameSucceeds (f : Word) : Bool :=
  (unpackFields f).b0 == 1#4 && (unpackFields f).b1 == 1#4

end Sys2Proof.Machine
end

