-- ==== Sys2Proof/Machine/Ops.lean ====
section
/-! DEFINITION. The shared operations: the data bytes of the slots (R8 MemRead and MemWrite), the key match (R131),
victim selection (R146), the touch (R11), driving a response (R76, R182, R188), raising an error (R184), and reset
(R210). -/

namespace Sys2Proof.Machine

/-! ## The data bytes -/

/-- What an address that the store does not list reads as. The spec gives the data bytes no reset value, and no rule
reads a byte of a slot that no INSERT has written (R31); the model names zero (assumption 2). -/
def Memory.unlisted : Byte := 0#8

/-- The store's one canonical form: addresses strictly rising, no entry equal to what an unlisted address reads as. -/
abbrev Memory.wf (m : Memory) : Prop :=
  m.Pairwise (fun c d => c.1 < d.1) ∧ ∀ c ∈ m, c.2 ≠ Memory.unlisted

/-- The byte at an address. -/
def Memory.read : Memory → Nat → Byte
  | [], _ => Memory.unlisted
  | (a, b) :: m, x => if a = x then b else Memory.read m x

/-- The entries that a run of bytes from address `a` needs: those that differ from an unlisted byte. -/
def Memory.cellsOf : Nat → List Byte → Memory
  | _, [] => []
  | a, b :: bs => if b = Memory.unlisted then Memory.cellsOf (a + 1) bs else (a, b) :: Memory.cellsOf (a + 1) bs

/-- Writes a run of bytes at addresses `a`, `a + 1`, …, and no other byte. -/
def Memory.writeRun (m : Memory) (a : Nat) (bs : List Byte) : Memory :=
  m.filter (fun c => decide (c.1 < a)) ++ (Memory.cellsOf a bs ++ m.filter (fun c => decide (a + bs.length ≤ c.1)))

/-- The address of `slot[i].data[k]`, for `k < 256` (R30, R50). -/
def dataAddress (i k : Nat) : Nat :=
  blockSize * i + k

/-- MemRead(i, off, n): the bytes `slot[i].data[off .. off+n-1]`, byte `off` first (R8). -/
def memRead (m : Memory) (i off n : Nat) : List Byte :=
  (List.range n).map (fun k => Memory.read m (dataAddress i (off + k)))

/-- MemWrite(i, off, n, v): writes the byte sequence to `slot[i].data[off .. off+n-1]` (R8). -/
def memWrite (m : Memory) (i off : Nat) (bs : List Byte) : Memory :=
  Memory.writeRun m (dataAddress i off) bs

/-- `slot[i].data[k]`. -/
def slotByte (s : State) (i k : Nat) : Byte :=
  Memory.read s.store (dataAddress i k)

/-! ## The slot array -/

/-- Whether a slot is valid and holds the key, compared field by field (R73, R131). An empty slot never matches. -/
def Slot.holds (c : Slot) (k : Key) : Bool :=
  c.valid && (c.key.dev == k.dev && c.key.sector == k.sector && c.key.block == k.block)

/-- `first_match`: the first slot, from slot 0 upward, that holds the key (R131). -/
def firstMatch (k : Key) (slots : List Slot) : Option Nat :=
  slots.findIdx? (fun c => c.holds k)

/-- The first empty slot in scan order, if there is one (R146). -/
def firstEmpty (slots : List Slot) : Option Nat :=
  slots.findIdx? (fun c => !c.valid)

/-- The second loop of R146: `m` is the slot of smallest recency so far and `low` its recency, and the slots still to
scan begin at index `i`. The comparison is strict, so the earlier slot wins a tie. -/
def leastRecentFrom (i m : Nat) (low : Word) : List Slot → Nat
  | [] => m
  | c :: rest => if c.recency < low then leastRecentFrom (i + 1) i c.recency rest else leastRecentFrom (i + 1) m low rest

/-- `victim`: the first empty slot, or else the slot of smallest recency, the first on a tie (R146); none where there
are no slots at all. -/
def victim (slots : List Slot) : Option Nat :=
  match firstEmpty slots with
  | some i => some i
  | none =>
    match slots with
    | [] => none
    | c :: rest => some (leastRecentFrom 1 0 c.recency rest)

/-- `for i in 0..N-1: slot[i].valid <- 0` (R135, R156). The other fields keep what they hold. -/
def invalidateAll (slots : List Slot) : List Slot :=
  slots.map (fun c => { c with valid := false })

/-- A touch of slot `i` on a LOOKUP hit: GCOUNT is advanced first, and the slot's recency takes the new value (R27, R140,
R141). -/
def touchSlot (i : Nat) (s : State) : State :=
  { s with gcount := s.gcount + 1, slots := s.slots.modify i (fun c => { c with recency := s.gcount + 1 }) }

/-- Fills slot `v` with a key and a whole block, and touches it (R145). -/
def fillSlot (v : Nat) (k : Key) (p : Payload) (s : State) : State :=
  { s with
    gcount := s.gcount + 1
    slots  := s.slots.set v { valid := true, key := k, recency := s.gcount + 1 }
    store  := memWrite s.store v 0 (payloadBytes blockSize p) }

/-! ## The response -/

/-- The response with the given status and driven fields, STATE and FAULT as they now stand (R76, R182); every field not
driven is a free draw (R188; assumption 4). -/
def responseOf (s : State) (status : BitVec 4) (d : Driven) : Response :=
  { status  := status
    fault   := s.fault
    state   := s.state.bit
    flag    := d.flag.getD (Config.undrivenFlag s.draws)
    frame   := d.frame.getD (Config.undrivenFrame s.draws)
    b0      := d.b0.getD (Config.undrivenB0 s.draws)
    b1      := d.b1.getD (Config.undrivenB1 s.draws)
    c0      := d.c0.getD (Config.undrivenC0 s.draws)
    c1      := d.c1.getD (Config.undrivenC1 s.draws)
    c2      := d.c2.getD (Config.undrivenC2 s.draws)
    d0      := d.d0.getD (Config.undrivenD0 s.draws)
    d1      := d.d1.getD (Config.undrivenD1 s.draws)
    payload := d.payload.getD (Config.undrivenPayload s.draws)
    slot    := d.slot.getD (Config.undrivenSlot s.draws % 2 ^ Config.slotIndexWidth s.slots.length)
    hits    := d.hits.getD (Config.undrivenHits s.draws)
    misses  := d.misses.getD (Config.undrivenMisses s.draws) }

/-- Ends a command: its writes are made, and its response is driven (R70, R182). -/
def respond (s : State) (status : BitVec 4) (d : Driven) : State :=
  { s with rsp := some (responseOf s status d), draws := s.draws + 1 }

/-- A command that performs: status OK. -/
def finish (s : State) (d : Driven) : Host.Outcome State Fault Refusal :=
  .next (respond s statusOk d)

/-- `raise Error(code)`: FAULT takes the error's bit, the response its code, and nothing else changes (R184). -/
def raiseError (e : ErrorCode) (s : State) : Host.Outcome State Fault Refusal :=
  .next (respond { s with fault := s.fault ||| e.faultBit } e.status {})

/-- The STATE check of every cache command but CINIT, made before every other check (R130). -/
def whenReady (s : State) (body : Host.Outcome State Fault Refusal) : Host.Outcome State Fault Refusal :=
  match s.state with
  | .unallocated => raiseError .notReady s
  | .ready => body

/-! ## Reset -/

/-- The reset event: every piece of state takes its reset value, and a request outstanding gets no response (R210). The
number of slots is configuration and stays (R35); what will happen at the port afterwards and the count of draws are the
model's own and stay. -/
def applyReset (s : State) : State :=
  { State.resetWith s.slots.length with port := s.port, draws := s.draws }

end Sys2Proof.Machine
end

