-- ==== Sys2Proof/Machine/Cache.lean ====
section
/-! DEFINITION. The Block Cache commands (42_cache.md). -/

namespace Sys2Proof.Machine

/-- CINIT allocates the cache and empties it (R135). FAULT and the slots' other fields stay. -/
def execCinit (s : State) : Host.Outcome State Fault Refusal :=
  match s.state with
  | .ready => raiseError .alreadyReady s
  | .unallocated =>
    finish { s with slots := invalidateAll s.slots, gcount := 0, hits := 0, misses := 0, state := .ready } {}

/-- LOOKUP searches for a key; on a hit it returns a copy of the block as it stands and marks it most recently used
(R140, R142). -/
def execLookup (k : Key) (s : State) : Host.Outcome State Fault Refusal :=
  whenReady s <|
    match firstMatch k s.slots with
    | none =>
      if s.misses = maxCount then raiseError .overflow s
      else finish { s with misses := s.misses + 1 } { flag := some false }
    | some i =>
      if s.gcount = maxCount ∨ s.hits = maxCount then raiseError .overflow s
      else
        finish { touchSlot i s with hits := s.hits + 1 }
          { flag := some true, payload := some (payloadOfBytes (memRead s.store i 0 blockSize)), slot := some i }

/-- INSERT writes a key and its block into the victim slot, without looking for the key first (R145). -/
def execInsert (k : Key) (p : Payload) (s : State) : Host.Outcome State Fault Refusal :=
  whenReady s <|
    if s.gcount = maxCount then raiseError .overflow s
    else
      match victim s.slots with
      | none => .fault .noSlots
      | some v => finish (fillSlot v k p s) { slot := some v }

/-- PATCH writes a run of bytes into a resident block in place; its key, its recency and every counter stay (R150). The
range is checked before the key is looked up. -/
def execPatch (k : Key) (offset : BitVec 8) (len : BitVec 9) (p : Payload) (s : State) :
    Host.Outcome State Fault Refusal :=
  whenReady s <|
    if runCrossesEnd offset len then raiseError .range s
    else
      match firstMatch k s.slots with
      | none => finish s { flag := some false }
      | some i =>
        finish { s with store := memWrite s.store i offset.toNat (payloadBytes len.toNat p) }
          { flag := some true, slot := some i }

/-- STATS reads the hit and miss counters (R153). -/
def execStats (s : State) : Host.Outcome State Fault Refusal :=
  whenReady s <| finish s { hits := some s.hits, misses := some s.misses }

/-- CSHUT reports the final statistics and releases the cache (R156). The counters keep their values (R28). -/
def execCshut (s : State) : Host.Outcome State Fault Refusal :=
  whenReady s <|
    finish { s with slots := invalidateAll s.slots, state := .unallocated }
      { hits := some s.hits, misses := some s.misses }

end Sys2Proof.Machine
end

