-- ==== Sys2Proof/Machine/Codec.lean ====
section
/-! DEFINITION. The Register Codec commands (41_codec.md). They perform in either STATE and change no register and no
slot. -/

namespace Sys2Proof.Machine

/-- ENCODE packs seven operands into a frame (R100, R101). -/
def execEncode (b0 b1 c0 c1 c2 d0 d1 : Word) (s : State) : Host.Outcome State Fault Refusal :=
  finish s { frame := some (packFields (truncOperands b0 b1 c0 c1 c2 d0 d1)) }

/-- DECODE unpacks a frame into its seven fields and drives all of them (R105, R106). -/
def execDecode (frame : Word) (s : State) : Host.Outcome State Fault Refusal :=
  let f := unpackFields frame
  finish s
    { b0 := some f.b0, b1 := some f.b1, c0 := some f.c0, c1 := some f.c1, c2 := some f.c2, d0 := some f.d0,
      d1 := some f.d1 }

/-- ISOK evaluates the success predicate on a frame (R110). -/
def execIsok (frame : Word) (s : State) : Host.Outcome State Fault Refusal :=
  finish s { flag := some (frameSucceeds frame) }

end Sys2Proof.Machine
end

