-- ==== Sys2Proof/Machine/Dispatch.lean ====
section
/-! DEFINITION. Command dispatch (R182): one arm per command, each one call of its meaning. -/

namespace Sys2Proof.Machine

def exec (i : Instr) (s : State) : Host.Outcome State Fault Refusal :=
  match i with
  | .encode b0 b1 c0 c1 c2 d0 d1 => Sys2Proof.Machine.execEncode b0 b1 c0 c1 c2 d0 d1 s
  | .decode frame => Sys2Proof.Machine.execDecode frame s
  | .isok frame => Sys2Proof.Machine.execIsok frame s
  | .cinit => Sys2Proof.Machine.execCinit s
  | .lookup key => Sys2Proof.Machine.execLookup key s
  | .insert key payload => Sys2Proof.Machine.execInsert key payload s
  | .patch key offset len payload => Sys2Proof.Machine.execPatch key offset len payload s
  | .stats => Sys2Proof.Machine.execStats s
  | .cshut => Sys2Proof.Machine.execCshut s

end Sys2Proof.Machine
end

