-- ==== Sys2Proof/Machine/Perform.lean ====
section
/-! DEFINITION. What the block does with one event at its port: a request, overlapping requests, reset (R182, R210,
R220). `step` only calls it. -/

namespace Sys2Proof.Machine

/-- `step(req)` of R182: the command `req.op` selects, or ILLEGAL_OP where the op is reserved (R75). -/
def performRequest (r : Request) (s : State) : Host.Outcome State Fault Refusal :=
  match decodeRequest r with
  | .ok i => exec i s
  | .error (.reservedOp _) => raiseError .illegalOp s

/-- One event at the port. Overlapping requests are refused (R220); a request outstanding at reset is dropped (R210). -/
def performEvent (e : PortEvent) (s : State) : Host.Outcome State Fault Refusal :=
  match e with
  | .request r => performRequest r s
  | .overlap _ _ => .refused .overlappingRequests
  | .reset _ => .next (applyReset s)

/-- Takes the earliest event off the port and performs it (R62); with no event the block does nothing, since it never
acts without a request (R189). -/
def runPort (s : State) : Host.Outcome State Fault Refusal :=
  match s.port with
  | [] => .next s
  | e :: rest => performEvent e { s with port := rest }

/-- The requester issues the request of a table word, ahead of what the port already holds. -/
def issueTableWord (s : State) (nbits w : Nat) : State :=
  { s with port := .request (Request.ofTableWord nbits w) :: s.port }

end Sys2Proof.Machine
end

