-- ==== Sys2Proof/Machine/Step.lean ====
section
/-! DEFINITION. One step of the machine: one event at the port, each command being atomic (R59, R62). -/

namespace Sys2Proof.Machine

/-- One step: the earliest event at the port, or nothing where there is none (R62, R189). -/
def step (s : State) : Host.Outcome State Fault Refusal :=
  runPort s

/-- The state in which the very next step runs the command of a table word: the requester has issued its request. The
block fetches nothing (R21); a program is the sequence of requests its requester issues (assumption 5). -/
def State.withFetchWord (s : State) (nbits w : Nat) : State :=
  issueTableWord s nbits w

end Sys2Proof.Machine
end

