-- ==== Sys2Proof/Machine/Pseudo.lean ====
section
/-! DEFINITION. The pseudo-instructions (R88), each one ENCODE or DECODE, over the OPEN controller constants (R83); and
what the fields of a decoded controller response mean (R86). -/

namespace Sys2Proof.Machine

/-- The request-frame template of R85: an ENCODE with both status fields zero. -/
def frameTemplate (op : BitVec 8) (dev : Word) (direction : BitVec 8) (sec blk : Word) : Instr :=
  .encode 0 0 (op.setWidth 64) dev (direction.setWidth 64) sec blk

/-- `FPWRON` (R85 power_on, R88). -/
def fpwron (c : FrameConsts) : Instr := frameTemplate c.opPowerOn 0 0 0 0

/-- `FPWROFF` (R85 power_off, R88). -/
def fpwroff (c : FrameConsts) : Instr := frameTemplate c.opPowerOff 0 0 0 0

/-- `FPROBE` (R85 probe_devices, R88). -/
def fprobe (c : FrameConsts) : Instr := frameTemplate c.opDevprobe 0 0 0 0

/-- `FDEVINIT id` (R85 init_device, R88). -/
def fdevinit (c : FrameConsts) (id : Word) : Instr := frameTemplate c.opDevinit id 0 0 0

/-- `FREAD dev, sec, blk` (R85 read_block, R88). -/
def fread (c : FrameConsts) (dev sec blk : Word) : Instr := frameTemplate c.opBlockXfer dev c.xferRead sec blk

/-- `FWRITE dev, sec, blk` (R85 write_block, R88). -/
def fwrite (c : FrameConsts) (dev sec blk : Word) : Instr := frameTemplate c.opBlockXfer dev c.xferWrite sec blk

/-- `GETMASK frame` (R88): a DECODE, of whose response `rsp.c1` is the device bitmask. -/
def getmask (frame : Word) : Instr := .decode frame

/-- `GETGEOM frame` (R88): a DECODE, of whose response `rsp.d0` is the sector count and `rsp.d1` the blocks per
sector. -/
def getgeom (frame : Word) : Instr := .decode frame

/-- The devices a DEVPROBE response reports present, in increasing order: device `i` where bit `i` of c1 is set. c1 is 8
bits wide, so these are among 0 to 7 (R86, C2). -/
def devicesPresent (mask : BitVec 8) : List Nat :=
  (List.range 8).filter (fun i => mask.getLsbD i)

end Sys2Proof.Machine
end

