-- ==== Sys2Proof/Machine/Requester.lean ====
section
/-! DEFINITION. The command sequences that the spec writes for the requester: the read path (R161), the write path
(R162), boot (R213), shutdown (R214) and the hit ratio (R154). They are software's; no rule of the block reads them. -/

namespace Sys2Proof.Machine

/-- The block `base` with bytes `offset .. offset+len-1` replaced by bytes 0 .. len-1 of `bytes` (R162). -/
def overlayRun (base : Payload) (offset len : Nat) (bytes : Payload) : Payload :=
  payloadOfBytes ((List.range blockSize).map (fun k =>
    if offset ≤ k ∧ k < offset + len then payloadByte bytes (k - offset) else payloadByte base k))

/-- The read path after its LOOKUP: nothing more on a hit; on a miss, INSERT of the block the controller gave (R161). -/
def readPathNext (k : Key) (controllerBlock : Payload) (lookupRsp : Response) : List Instr :=
  if lookupRsp.flag then [] else [.insert k controllerBlock]

/-- The block of which the read path copies its byte range: the LOOKUP's snapshot on a hit, else the controller's
(R161). -/
def readPathBlock (controllerBlock : Payload) (lookupRsp : Response) : Payload :=
  if lookupRsp.flag then lookupRsp.payload else controllerBlock

/-- The write path after its LOOKUP: PATCH on a hit; on a miss, INSERT of the controller's block with the bytes
applied (R162). -/
def writePathNext (k : Key) (offset : BitVec 8) (len : BitVec 9) (bytes controllerBlock : Payload)
    (lookupRsp : Response) : List Instr :=
  if lookupRsp.flag then [.patch k offset len bytes]
  else [.insert k (overlayRun controllerBlock offset.toNat len.toNat bytes)]

/-- The full block the write path then writes to the controller (R162). -/
def writePathBlock (offset : BitVec 8) (len : BitVec 9) (bytes controllerBlock : Payload) (lookupRsp : Response) :
    Payload :=
  overlayRun (readPathBlock controllerBlock lookupRsp) offset.toNat len.toNat bytes

/-- The boot sequence, given the controller's response frames (R213). It stops after step 1 where power-on fails; what
the requester does when a later exchange fails is not stated (N26), and the sequence below is that of exchanges that
succeed. -/
def bootCommands (c : FrameConsts) (powerRsp probeRsp : Word) (initRsp : Nat → Word) : List Instr :=
  [fpwron c, .isok powerRsp] ++
    if frameSucceeds powerRsp then
      [.cinit, fprobe c, .isok probeRsp, getmask probeRsp] ++
        (devicesPresent (unpackFields probeRsp).c1).flatMap (fun i =>
          [fdevinit c (BitVec.ofNat 64 i), .isok (initRsp i), getgeom (initRsp i)])
    else []

/-- The shutdown sequence: CSHUT is issued whatever ISOK returned (R214). -/
def shutdownCommands (c : FrameConsts) (powerOffRsp : Word) : List Instr :=
  [fpwroff c, .isok powerOffRsp, .cshut]

/-- The hit ratio a requester computes, as a numerator and a denominator in unbounded arithmetic; no value at all where
both counts are 0 (R154, I1). -/
def hitRatio (hits misses : Word) : Option (Nat × Nat) :=
  if hits.toNat + misses.toNat = 0 then none else some (hits.toNat, hits.toNat + misses.toNat)

end Sys2Proof.Machine
end

