-- ==== Sys2Proof/Machine/Wire.lean ====
section
/-! DEFINITION. The byte order of a frame and of a payload on the wire (R54, R55). The conversion is the Protocol
Client's, outside the block; the rules fix what a frame of the codec means once it is on the wire. -/

namespace Sys2Proof.Machine

/-- The eight wire bytes of a frame, W0 (sent first) to W7: `Wk = f[63-8k : 56-8k]` (R54). -/
def frameToWire (f : Word) : List Byte :=
  (List.range 8).map (fun k => f.extractLsb' (56 - 8 * k) 8)

/-- The frame received as bytes W0 to W7 (R54). -/
def frameOfWire (w0 w1 w2 w3 w4 w5 w6 w7 : Byte) : Word :=
  w0 ++ w1 ++ w2 ++ w3 ++ w4 ++ w5 ++ w6 ++ w7

/-- The 256 wire bytes of a payload, byte 0 sent first (R55). -/
def payloadToWire (p : Payload) : List Byte :=
  payloadBytes blockSize p

/-- The payload received as a sequence of bytes, the first being byte 0 (R55). -/
def payloadOfWire (bs : List Byte) : Payload :=
  payloadOfBytes bs

end Sys2Proof.Machine
end

