-- ==== Sys2Proof/Safety.lean ====
section
/-! DEFINITION. The terms claims are stated in: the invariant of the block, key uniqueness and the requester's
obligation, a run without error, and what it means for a command to leave state alone. -/

namespace Sys2Proof.Machine

/-- The invariant every step keeps (R26, R27, R28, R30, R33, R181, R182). -/
structure Inv (s : State) : Prop where
  /-- CACHE_N ≥ 1 (R6). -/
  capacity : s.slots ≠ []
  /-- The store keeps its canonical form (assumption 8). -/
  storeWf : Memory.wf s.store
  /-- The store lists no byte outside the CACHE_N slots of 256 bytes (R50; the addresses are assumption 8's). -/
  storeBound : ∀ c ∈ s.store, c.1 < blockSize * s.slots.length
  /-- FAULT bits 7:5 are never set (R26). -/
  faultReserved : s.fault.extractLsb' 5 3 = 0
  /-- While UNALLOCATED no slot is valid (R25, R31). -/
  unallocatedEmpty : s.state = .unallocated → ∀ c ∈ s.slots, c.valid = false
  /-- The recency of a valid slot is between 1 and GCOUNT (R33). -/
  recencyRange : ∀ c ∈ s.slots, c.valid = true → 1 ≤ c.recency ∧ c.recency ≤ s.gcount
  /-- The recencies of valid slots are pairwise distinct (R33). -/
  recencyDistinct : ∀ (i j : Nat) (c d : Slot), s.slots[i]? = some c → s.slots[j]? = some d → c.valid = true → d.valid = true →
    c.recency = d.recency → i = j
  /-- The slot last touched has recency equal to GCOUNT (R33). -/
  lastTouched : s.state = .ready → s.gcount ≠ 0 → ∃ c ∈ s.slots, c.valid = true ∧ c.recency = s.gcount
  /-- HITS never exceeds GCOUNT (D28). -/
  hitsBound : s.hits ≤ s.gcount
  /-- A response shows FAULT and STATE as they stand after its command, and never a reserved status (R181, R182);
  that it is kept is assumption 4. -/
  rspInStep : ∀ r, s.rsp = some r → r.fault = s.fault ∧ r.state = s.state.bit ∧ r.status ≤ 5

/-- No two valid slots hold the same key (R32). -/
def UniqueKeys (s : State) : Prop :=
  ∀ (i j : Nat) (c d : Slot), s.slots[i]? = some c → s.slots[j]? = some d → c.valid = true → d.valid = true → c.key = d.key → i = j

/-- The requester obligation of R160 for one command: it is no INSERT of a resident key. The block does not check it; a
claim that needs key uniqueness takes it as a premise. -/
def RespectsResidency (i : Instr) (s : State) : Prop :=
  ∀ k p, i = .insert k p → firstMatch k s.slots = none

/-- The requester obligation of R160 for the event that stands next at the port. -/
def PortRespectsResidency (s : State) : Prop :=
  ∀ r rest i, s.port = .request r :: rest → decodeRequest r = .ok i → RespectsResidency i s

/-- A run that ended without an error: FAULT = 0 at the end, which is how a claim about a command sequence that should
not fail is put (R187). -/
def EndsWithoutError : Host.Outcome State Fault Refusal → Prop
  | .next s => s.fault = 0
  | .fault _ => False
  | .refused _ => False

/-- The five control and status registers stand as they did (R24). -/
def SameRegisters (s t : State) : Prop :=
  t.state = s.state ∧ t.gcount = s.gcount ∧ t.hits = s.hits ∧ t.misses = s.misses ∧ t.fault = s.fault

/-- Every byte of the store reads as it did. -/
def SameBytes (s t : State) : Prop :=
  ∀ a, Memory.read t.store a = Memory.read s.store a

/-- `t` is what `s` becomes by a command that ends with the error status `code`: FAULT has taken bit `code - 1`, the
response shows the code, FAULT and STATE, and everything else stands as it did (R184). -/
structure EndedWithError (code : BitVec 4) (s t : State) : Prop where
  fault  : t.fault = s.fault ||| (1#8 <<< (code.toNat - 1))
  state  : t.state = s.state
  gcount : t.gcount = s.gcount
  hits   : t.hits = s.hits
  misses : t.misses = s.misses
  slots  : t.slots = s.slots
  bytes  : SameBytes s t
  port   : t.port = s.port
  rsp    : ∃ r, t.rsp = some r ∧ r.status = code ∧ r.fault = t.fault ∧ r.state = t.state.bit

/-- `t` is what `s` becomes by an INSERT that writes slot `v`: GCOUNT is one higher, the slot is valid, holds the key and
carries the new GCOUNT as its recency, its 256 bytes are the payload's, the response names the slot and does not drive
its flag, and everything else stands as it did (R145). -/
structure FilledSlot (v : Nat) (k : Key) (p : Payload) (s t : State) : Prop where
  gcount : t.gcount.toNat = s.gcount.toNat + 1
  slot   : t.slots[v]? = some { valid := true, key := k, recency := t.gcount }
  length : t.slots.length = s.slots.length
  others : ∀ j, j ≠ v → t.slots[j]? = s.slots[j]?
  data   : ∀ n, n < blockSize → slotByte t v n = payloadByte p n
  bytes  : ∀ a, ¬(dataAddress v 0 ≤ a ∧ a < dataAddress v 0 + blockSize) → Memory.read t.store a = Memory.read s.store a
  state  : t.state = s.state
  hits   : t.hits = s.hits
  misses : t.misses = s.misses
  fault  : t.fault = s.fault
  port   : t.port = s.port
  rsp    : ∃ r, t.rsp = some r ∧ r.status = 0 ∧ r.slot = v ∧ r.flag = Config.undrivenFlag s.draws ∧ r.fault = t.fault ∧
    r.state = t.state.bit

/-- The command leaves every register, slot and byte, and the port, as they are: only its response is new. -/
def OnlyResponds (s t : State) : Prop :=
  SameRegisters s t ∧ t.slots = s.slots ∧ SameBytes s t ∧ t.port = s.port

/-- The status R185 and R181 give a request: the first error that applies, in that order, or OK. -/
def expectedStatus (q : Request) (s : State) : BitVec 4 :=
  let key : Key := { dev := q.dev, sector := q.sector, block := q.block }
  let resident := firstMatch key s.slots ≠ none
  if q.op = 0 ∨ 10 ≤ q.op.toNat then 1
  else if q.op = 4 ∧ s.state = .ready then 3
  else if 5 ≤ q.op.toNat ∧ s.state = .unallocated then 2
  else if q.op = 7 ∧ 256 < q.offset.toNat + q.len.toNat then 4
  else if q.op = 5 ∧ resident ∧ (s.gcount = maxCount ∨ s.hits = maxCount) then 5
  else if q.op = 5 ∧ ¬resident ∧ s.misses = maxCount then 5
  else if q.op = 6 ∧ s.gcount = maxCount then 5
  else 0

/-- Two states that differ, if at all, only in what R31 says has no meaning: the key, the recency and the data of slots
with valid = 0. -/
structure AgreeOnValid (s t : State) : Prop where
  registers : SameRegisters s t
  rsp : t.rsp = s.rsp
  port : t.port = s.port
  draws : t.draws = s.draws
  length : t.slots.length = s.slots.length
  valid : ∀ (i : Nat) (c d : Slot), s.slots[i]? = some c → t.slots[i]? = some d → c.valid = d.valid
  held : ∀ (i : Nat) (c d : Slot), s.slots[i]? = some c → t.slots[i]? = some d → c.valid = true →
    d.key = c.key ∧ d.recency = c.recency ∧ ∀ k, k < blockSize → slotByte t i k = slotByte s i k

end Sys2Proof.Machine
end

