-- ==== Sys2Proof/Certificates/Slice0/Obligations.lean ====
section
/-! DEFINITION. The statements for the provers, from the spec's numbered rules. -/

open Sys2Proof Sys2Proof.Machine

/-! ## Reset, the port, dispatch -/

/-- R24, R210: reset leaves STATE, GCOUNT, HITS, MISSES and FAULT zero and CACHE_N slots, at least one, all with
valid = 0. That no byte is listed, no response stands and no event waits is the model's choice (assumptions 2, 4, 5). -/
def Obligations.ResetLeavesStatedValues : Prop :=
  State.reset.state = .unallocated ∧ State.reset.gcount = 0 ∧ State.reset.hits = 0 ∧ State.reset.misses = 0 ∧
    State.reset.fault = 0 ∧ State.reset.slots.length = Config.cacheN ∧ 1 ≤ State.reset.slots.length ∧
    (∀ c ∈ State.reset.slots, c.valid = false) ∧ State.reset.store = [] ∧ State.reset.rsp = none ∧ State.reset.port = []

/-- R210: the reset event puts the registers and valid bits at their reset values whatever they were, the number of slots
stays, and a request outstanding at reset gets no response and has no effect. That no response stands after reset, that
the event is one step between commands and that later events stay at the port is the model's choice (assumption 7). -/
def Obligations.ResetEventRestoresResetValues : Prop :=
  ∀ (s : State) (o : Option Request) (rest : List PortEvent), s.port = .reset o :: rest →
    ∃ t, step s = .next t ∧ t.state = .unallocated ∧ t.gcount = 0 ∧ t.hits = 0 ∧ t.misses = 0 ∧ t.fault = 0 ∧
      t.slots.length = s.slots.length ∧ (∀ c ∈ t.slots, c.valid = false) ∧ t.rsp = none ∧ t.port = rest ∧
      step { s with port := .reset none :: rest } = .next t

/-- The invariant holds at reset (R25, R26, R33, D28). Its clauses that the store's list is canonical and within the
slots are the model's choice (assumptions 2 and 8), and so is the clause on the kept response, which reset leaves empty
(assumption 4). -/
def Obligations.ResetMeetsInvariant : Prop :=
  Inv State.reset

/-- Every step keeps the invariant, from every state that meets it: FAULT's reserved bits stay clear (R26), recencies of
valid slots stay pairwise distinct and between 1 and GCOUNT with the last touched at GCOUNT (R33), no slot is valid while
UNALLOCATED (R25), HITS never exceeds GCOUNT (D28), and the response shows FAULT, STATE and no reserved status (R181,
R182). That the data bytes are one canonical list of addresses within the slots is the model's choice (assumption 8), and
so is that the response is kept (assumption 4). -/
def Obligations.EveryStepKeepsInvariant : Prop :=
  ∀ s t : State, Inv s → step s = .next t → Inv t

/-- No bit of a request is dropped: reading a flat word and writing it are inverse, and the decoder gives back every
command from the word the encoder makes of it. The flat layout is the model's (assumption 3). -/
def Obligations.RequestWordsRoundTrip : Prop :=
  (∀ r : Request, Request.ofWord r.toWord = r) ∧ (∀ w : BitVec requestWidth, (Request.ofWord w).toWord = w) ∧
    ∀ i : Instr, decodeWord (encodeWord i) = .ok i

/-- R74: words of the opcode table decode to their commands, and those of all seven reserved ops to none (R75). -/
def Obligations.WordsDecodeToTheirCommands : Prop :=
  decodeTableWord 4 0x1 = some (.encode 0 0 0 0 0 0 0) ∧ decodeTableWord 4 0x2 = some (.decode 0) ∧
    decodeTableWord 4 0x3 = some (.isok 0) ∧ decodeTableWord 4 0x4 = some .cinit ∧
    decodeTableWord 4 0x5 = some (.lookup ⟨0, 0, 0⟩) ∧ decodeTableWord 4 0x6 = some (.insert ⟨0, 0, 0⟩ 0) ∧
    decodeTableWord 4 0x7 = some (.patch ⟨0, 0, 0⟩ 0 0 0) ∧ decodeTableWord 4 0x8 = some .stats ∧
    decodeTableWord 4 0x9 = some .cshut ∧ decodeTableWord 4 0x0 = none ∧ decodeTableWord 4 0xA = none ∧
    decodeTableWord 4 0xB = none ∧ decodeTableWord 4 0xC = none ∧ decodeTableWord 4 0xD = none ∧
    decodeTableWord 4 0xE = none ∧ decodeTableWord 4 0xF = none

/-- R70, R74, R75: `req.op` alone selects the command, which takes the fields its rule names; every other op is rejected
by name. -/
def Obligations.OpSelectsCommand : Prop :=
  ∀ q : Request,
    (q.op = 0x1 → decodeRequest q = .ok (.encode q.b0 q.b1 q.c0 q.c1 q.c2 q.d0 q.d1)) ∧
    (q.op = 0x2 → decodeRequest q = .ok (.decode q.frame)) ∧
    (q.op = 0x3 → decodeRequest q = .ok (.isok q.frame)) ∧
    (q.op = 0x4 → decodeRequest q = .ok .cinit) ∧
    (q.op = 0x5 → decodeRequest q = .ok (.lookup ⟨q.dev, q.sector, q.block⟩)) ∧
    (q.op = 0x6 → decodeRequest q = .ok (.insert ⟨q.dev, q.sector, q.block⟩ q.payload)) ∧
    (q.op = 0x7 → decodeRequest q = .ok (.patch ⟨q.dev, q.sector, q.block⟩ q.offset q.len q.payload)) ∧
    (q.op = 0x8 → decodeRequest q = .ok .stats) ∧
    (q.op = 0x9 → decodeRequest q = .ok .cshut) ∧
    (q.op = 0x0 ∨ 0xA ≤ q.op.toNat → decodeRequest q = .error (.reservedOp q.op))

/-- R62, R182: a step whose earliest event is a request runs exactly the command decoded from it, on the state with that
event taken off the port; and `withFetchWord` makes the next step run the table word's command. The list of events and
`withFetchWord` are the model's choice (assumption 5), and so is the flat table word (assumption 3). -/
def Obligations.StepRunsDecodedCommand : Prop :=
  (∀ (s : State) (q : Request) (rest : List PortEvent) (i : Instr), s.port = .request q :: rest →
    decodeRequest q = .ok i → step s = exec i { s with port := rest }) ∧
  ∀ (s : State) (nbits w : Nat) (i : Instr), decodeTableWord nbits w = some i →
    step (s.withFetchWord nbits w) = exec i s

/-- R75, R182: a request with a reserved op ends with ILLEGAL_OP, in either STATE and whatever its operands, and changes
nothing but FAULT bit 0. -/
def Obligations.ReservedOpEndsIllegal : Prop :=
  ∀ (s : State) (q : Request) (rest : List PortEvent), s.port = .request q :: rest →
    (q.op = 0x0 ∨ 0xA ≤ q.op.toNat) → ∃ t, step s = .next t ∧ EndedWithError 1 { s with port := rest } t

/-- R220, R194: overlapping requests are refused. That an overlap is one event at the port is the model's choice
(assumption 6). -/
def Obligations.OverlapIsRefused : Prop :=
  ∀ (s : State) (q q' : Request) (rest : List PortEvent), s.port = .overlap q q' :: rest →
    step s = .refused .overlappingRequests

/-- R189: the block never acts without a request. That such a step is a step at all is the model's (assumption 5). -/
def Obligations.NoRequestNoAction : Prop :=
  ∀ s : State, s.port = [] → step s = .next s

/-- R71: a field that the command's rule does not name has no effect: the request with every such field zero does the
same. That the response fields which the command does not drive agree too is the model's choice, the form of its draws
(assumption 4); R188 does not give it. A request with a reserved op is `ReservedOpEndsIllegal`'s. -/
def Obligations.IgnoredFieldsHaveNoEffect : Prop :=
  ∀ (q : Request) (i : Instr) (s : State), decodeRequest q = .ok i →
    performRequest q s = performRequest (encodeRequest i) s

/-! ## The Register Codec -/

/-- R100: ENCODE completes in every state; the frame is the one the rule's 64-bit formula gives; no register, slot or
byte changes; `rsp.flag` is not driven. -/
def Obligations.EncodePacksFields : Prop :=
  (∀ q : Request, q.op = 0x1 → decodeRequest q = .ok (.encode q.b0 q.b1 q.c0 q.c1 q.c2 q.d0 q.d1)) ∧
  ∀ (b0 b1 c0 c1 c2 d0 d1 : Word) (s : State),
    ∃ t r, exec (.encode b0 b1 c0 c1 c2 d0 d1) s = .next t ∧ t.rsp = some r ∧ r.status = 0 ∧
      r.frame = (b0 &&& 0xF) <<< 60 ||| (b1 &&& 0xF) <<< 56 ||| (c0 &&& 0xFF) <<< 48 ||| (c1 &&& 0xFF) <<< 40 |||
        (c2 &&& 0xFF) <<< 32 ||| (d0 &&& 0xFFFF) <<< 16 ||| (d1 &&& 0xFFFF) ∧
      r.flag = Config.undrivenFlag s.draws ∧ OnlyResponds s t

/-- R105, R106: DECODE completes in every state and drives all seven fields, each at the value of its bits; no register,
slot or byte changes; `rsp.flag` is not driven. -/
def Obligations.DecodeUnpacksFields : Prop :=
  (∀ q : Request, q.op = 0x2 → decodeRequest q = .ok (.decode q.frame)) ∧
  ∀ (f : Word) (s : State),
    ∃ t r, exec (.decode f) s = .next t ∧ t.rsp = some r ∧ r.status = 0 ∧
      r.b0.toNat = f.toNat / 2 ^ 60 ∧ r.b1.toNat = f.toNat / 2 ^ 56 % 2 ^ 4 ∧ r.c0.toNat = f.toNat / 2 ^ 48 % 2 ^ 8 ∧
      r.c1.toNat = f.toNat / 2 ^ 40 % 2 ^ 8 ∧ r.c2.toNat = f.toNat / 2 ^ 32 % 2 ^ 8 ∧
      r.d0.toNat = f.toNat / 2 ^ 16 % 2 ^ 16 ∧ r.d1.toNat = f.toNat % 2 ^ 16 ∧
      r.flag = Config.undrivenFlag s.draws ∧ OnlyResponds s t

/-- R110: ISOK completes in every state; its flag is 1 exactly when bits 63:60 and bits 59:56 are both 1; no register,
slot or byte changes. -/
def Obligations.IsokTestsBothStatusFields : Prop :=
  (∀ q : Request, q.op = 0x3 → decodeRequest q = .ok (.isok q.frame)) ∧
  ∀ (f : Word) (s : State),
    ∃ t r, exec (.isok f) s = .next t ∧ t.rsp = some r ∧ r.status = 0 ∧
      (r.flag = true ↔ f.toNat / 2 ^ 60 = 1 ∧ f.toNat / 2 ^ 56 % 2 ^ 4 = 1) ∧ OnlyResponds s t

/-- R111: ISOK of a frame is 1 exactly when its top byte is 0x11; and of a frame that ENCODE built, exactly when the low
four bits of b0 and of b1 are 1. -/
def Obligations.IsokOfTopByteAndOfEncodedFrame : Prop :=
  (∀ (f : Word) (s t : State) (r : Response), exec (.isok f) s = .next t → t.rsp = some r →
    (r.flag = true ↔ f.toNat / 2 ^ 56 = 0x11)) ∧
  ∀ (b0 b1 c0 c1 c2 d0 d1 : Word) (s t t' : State) (r r' : Response),
    exec (.encode b0 b1 c0 c1 c2 d0 d1) s = .next t → t.rsp = some r →
    exec (.isok r.frame) t = .next t' → t'.rsp = some r' →
    (r'.flag = true ↔ b0.toNat % 16 = 1 ∧ b1.toNat % 16 = 1)

/-- R107: DECODE of the frame ENCODE makes returns each operand truncated to its field's width, and so the operands
themselves where they are within their fields' widths. -/
def Obligations.EncodeThenDecodeTruncates : Prop :=
  ∀ (b0 b1 c0 c1 c2 d0 d1 : Word) (s : State),
    ∃ t r t' r', exec (.encode b0 b1 c0 c1 c2 d0 d1) s = .next t ∧ t.rsp = some r ∧
      exec (.decode r.frame) t = .next t' ∧ t'.rsp = some r' ∧
      (r'.b0.toNat = b0.toNat % 16 ∧ r'.b1.toNat = b1.toNat % 16 ∧ r'.c0.toNat = c0.toNat % 256 ∧
        r'.c1.toNat = c1.toNat % 256 ∧ r'.c2.toNat = c2.toNat % 256 ∧ r'.d0.toNat = d0.toNat % 65536 ∧
        r'.d1.toNat = d1.toNat % 65536) ∧
      (b0.toNat < 16 → b1.toNat < 16 → c0.toNat < 256 → c1.toNat < 256 → c2.toNat < 256 → d0.toNat < 65536 →
        d1.toNat < 65536 →
        r'.b0.setWidth 64 = b0 ∧ r'.b1.setWidth 64 = b1 ∧ r'.c0.setWidth 64 = c0 ∧ r'.c1.setWidth 64 = c1 ∧
          r'.c2.setWidth 64 = c2 ∧ r'.d0.setWidth 64 = d0 ∧ r'.d1.setWidth 64 = d1)

/-- R108: for every frame, ENCODE of the seven fields DECODE returns gives the frame again. -/
def Obligations.DecodeThenEncodeRestores : Prop :=
  ∀ (f : Word) (s : State),
    ∃ t r t' r', exec (.decode f) s = .next t ∧ t.rsp = some r ∧
      exec (.encode (r.b0.setWidth 64) (r.b1.setWidth 64) (r.c0.setWidth 64) (r.c1.setWidth 64) (r.c2.setWidth 64)
        (r.d0.setWidth 64) (r.d1.setWidth 64)) t = .next t' ∧
      t'.rsp = some r' ∧ r'.frame = f

/-- R81: the bits of an operand above its field's width reach nothing: two ENCODEs whose operands agree in those low
bits do the same in every state. That the response fields which ENCODE does not drive agree too is the model's choice, the
form of its draws (assumption 4). -/
def Obligations.UpperOperandBitsReachNothing : Prop :=
  ∀ (b0 b1 c0 c1 c2 d0 d1 b0' b1' c0' c1' c2' d0' d1' : Word) (s : State),
    b0.toNat % 16 = b0'.toNat % 16 → b1.toNat % 16 = b1'.toNat % 16 → c0.toNat % 256 = c0'.toNat % 256 →
    c1.toNat % 256 = c1'.toNat % 256 → c2.toNat % 256 = c2'.toNat % 256 → d0.toNat % 65536 = d0'.toNat % 65536 →
    d1.toNat % 65536 = d1'.toNat % 65536 →
    exec (.encode b0 b1 c0 c1 c2 d0 d1) s = exec (.encode b0' b1' c0' c1' c2' d0' d1') s

/-- R54: the wire bytes of a frame are its bytes from the most significant down, as the rule's table gives them field by
field, and receipt is the inverse. -/
def Obligations.WireIsBigEndian : Prop :=
  (∀ (f : Word) (k : Nat), k < 8 → (frameToWire f)[k]? = some (BitVec.ofNat 8 (f.toNat / 2 ^ (56 - 8 * k)))) ∧
  (∀ x : FrameFields, frameToWire (packFields x) =
    [x.b0 ++ x.b1, x.c0, x.c1, x.c2, x.d0.extractLsb' 8 8, x.d0.extractLsb' 0 8, x.d1.extractLsb' 8 8,
      x.d1.extractLsb' 0 8]) ∧
  (∀ w0 w1 w2 w3 w4 w5 w6 w7 : Byte,
    frameToWire (frameOfWire w0 w1 w2 w3 w4 w5 w6 w7) = [w0, w1, w2, w3, w4, w5, w6, w7]) ∧
  ∀ (f : Word) (w0 w1 w2 w3 w4 w5 w6 w7 : Byte), frameToWire f = [w0, w1, w2, w3, w4, w5, w6, w7] →
    frameOfWire w0 w1 w2 w3 w4 w5 w6 w7 = f

/-- R85, R88: the frames of the pseudo-instructions, for every choice of the OPEN controller constants: the opcode in c0,
the device in c1, the direction in c2, sector and block in d0 and d1, zero in every field the operation does not name. -/
def Obligations.PseudoInstructionFrames : Prop :=
  ∀ (c : FrameConsts) (dev sec blk : Word) (s : State),
    (∃ t r, exec (fpwron c) s = .next t ∧ t.rsp = some r ∧ r.frame.toNat = c.opPowerOn.toNat * 2 ^ 48) ∧
    (∃ t r, exec (fpwroff c) s = .next t ∧ t.rsp = some r ∧ r.frame.toNat = c.opPowerOff.toNat * 2 ^ 48) ∧
    (∃ t r, exec (fprobe c) s = .next t ∧ t.rsp = some r ∧ r.frame.toNat = c.opDevprobe.toNat * 2 ^ 48) ∧
    (∃ t r, exec (fdevinit c dev) s = .next t ∧ t.rsp = some r ∧
      r.frame.toNat = c.opDevinit.toNat * 2 ^ 48 + dev.toNat % 2 ^ 8 * 2 ^ 40) ∧
    (∃ t r, exec (fread c dev sec blk) s = .next t ∧ t.rsp = some r ∧
      r.frame.toNat = c.opBlockXfer.toNat * 2 ^ 48 + dev.toNat % 2 ^ 8 * 2 ^ 40 + c.xferRead.toNat * 2 ^ 32 +
        sec.toNat % 2 ^ 16 * 2 ^ 16 + blk.toNat % 2 ^ 16) ∧
    (∃ t r, exec (fwrite c dev sec blk) s = .next t ∧ t.rsp = some r ∧
      r.frame.toNat = c.opBlockXfer.toNat * 2 ^ 48 + dev.toNat % 2 ^ 8 * 2 ^ 40 + c.xferWrite.toNat * 2 ^ 32 +
        sec.toNat % 2 ^ 16 * 2 ^ 16 + blk.toNat % 2 ^ 16)

/-! ## The Block Cache, command by command -/

/-- R130: every cache command but CINIT ends with NOT_READY while UNALLOCATED, and CINIT with ALREADY_READY while READY,
whatever else would be wrong with it; nothing changes but FAULT. -/
def Obligations.StateChecksComeFirst : Prop :=
  (∀ (s : State) (i : Instr), s.state = .unallocated →
    ((∃ k, i = .lookup k) ∨ (∃ k p, i = .insert k p) ∨ (∃ k offset len p, i = .patch k offset len p) ∨ i = .stats ∨
      i = .cshut) →
    ∃ t, exec i s = .next t ∧ EndedWithError 2 s t) ∧
  ∀ s : State, s.state = .ready → ∃ t, exec .cinit s = .next t ∧ EndedWithError 3 s t

/-- R135: CINIT completes while UNALLOCATED: every slot becomes empty, its other fields staying, GCOUNT, HITS and MISSES
become 0, STATE becomes READY; FAULT and every byte stay. While READY it ends with ALREADY_READY. -/
def Obligations.CinitAllocates : Prop :=
  (∀ q : Request, q.op = 0x4 → decodeRequest q = .ok .cinit) ∧
  (∀ s : State, s.state = .unallocated →
    ∃ t r, exec .cinit s = .next t ∧ t.rsp = some r ∧ r.status = 0 ∧ r.state = 1 ∧ r.fault = s.fault ∧
      r.flag = Config.undrivenFlag s.draws ∧ t.state = .ready ∧ t.gcount = 0 ∧ t.hits = 0 ∧ t.misses = 0 ∧
      t.fault = s.fault ∧ t.slots.length = s.slots.length ∧
      (∀ (i : Nat) (c : Slot), s.slots[i]? = some c → t.slots[i]? = some { c with valid := false }) ∧
      SameBytes s t ∧ t.port = s.port) ∧
  ∀ s : State, s.state = .ready → ∃ t, exec .cinit s = .next t ∧ EndedWithError 3 s t

/-- R140, R131, R142: a LOOKUP hit. Where slot `i` is the first valid slot that holds the key and neither GCOUNT nor HITS
is at its maximum, LOOKUP completes: GCOUNT goes up by one, slot `i` takes the new GCOUNT as its recency and nothing else
of it changes, HITS goes up by one, the response carries flag 1, the slot's index and a copy of its 256 bytes, and
everything else stays. -/
def Obligations.LookupHit : Prop :=
  ∀ (s : State) (k : Key) (i : Nat) (c : Slot), s.state = .ready → s.slots[i]? = some c → c.valid = true → c.key = k →
    (∀ (j : Nat) (d : Slot), j < i → s.slots[j]? = some d → ¬(d.valid = true ∧ d.key = k)) →
    s.gcount ≠ maxCount → s.hits ≠ maxCount →
    ∃ t r, exec (.lookup k) s = .next t ∧ t.rsp = some r ∧ r.status = 0 ∧ r.flag = true ∧ r.slot = i ∧
      (∀ n, n < blockSize → payloadByte r.payload n = slotByte s i n) ∧
      t.gcount.toNat = s.gcount.toNat + 1 ∧ t.hits.toNat = s.hits.toNat + 1 ∧
      t.slots[i]? = some { c with recency := t.gcount } ∧ t.slots.length = s.slots.length ∧
      (∀ j, j ≠ i → t.slots[j]? = s.slots[j]?) ∧
      t.state = s.state ∧ t.misses = s.misses ∧ t.fault = s.fault ∧ SameBytes s t ∧ t.port = s.port

/-- R140, R131: a LOOKUP miss. Where no valid slot holds the key and MISSES is not at its maximum, LOOKUP completes:
MISSES goes up by one, the response carries flag 0, and nothing else changes. -/
def Obligations.LookupMiss : Prop :=
  ∀ (s : State) (k : Key), s.state = .ready → (∀ c ∈ s.slots, ¬(c.valid = true ∧ c.key = k)) → s.misses ≠ maxCount →
    ∃ t r, exec (.lookup k) s = .next t ∧ t.rsp = some r ∧ r.status = 0 ∧ r.flag = false ∧
      t.misses.toNat = s.misses.toNat + 1 ∧ t.state = s.state ∧ t.gcount = s.gcount ∧ t.hits = s.hits ∧
      t.fault = s.fault ∧ t.slots = s.slots ∧ SameBytes s t ∧ t.port = s.port

/-- R145, R146: an INSERT with an empty slot. Where slot `v` is the first empty one and GCOUNT is not at its maximum,
INSERT completes and fills slot `v`. -/
def Obligations.InsertFillsFirstEmptySlot : Prop :=
  ∀ (s : State) (k : Key) (p : Payload) (v : Nat) (c : Slot), s.state = .ready → s.gcount ≠ maxCount →
    s.slots[v]? = some c → c.valid = false →
    (∀ (j : Nat) (d : Slot), j < v → s.slots[j]? = some d → d.valid = true) →
    ∃ t, exec (.insert k p) s = .next t ∧ FilledSlot v k p s t

/-- R145, R146: an INSERT into a full cache. Where every slot is valid, slot `v` has the smallest recency and is the
first that has it, and GCOUNT is not at its maximum, INSERT completes and overwrites slot `v`. -/
def Obligations.InsertEvictsLeastRecent : Prop :=
  ∀ (s : State) (k : Key) (p : Payload) (v : Nat) (c : Slot), s.state = .ready → s.gcount ≠ maxCount →
    (∀ d ∈ s.slots, d.valid = true) → s.slots[v]? = some c → (∀ d ∈ s.slots, c.recency ≤ d.recency) →
    (∀ (j : Nat) (d : Slot), j < v → s.slots[j]? = some d → c.recency < d.recency) →
    ∃ t, exec (.insert k p) s = .next t ∧ FilledSlot v k p s t

/-- D5, R6: with no slots at all, which CACHE_N ≥ 1 excludes, INSERT has no victim and stops by name; with a slot it
completes. -/
def Obligations.InsertCompletesExactlyWithASlot : Prop :=
  ∀ (s : State) (k : Key) (p : Payload), s.state = .ready → s.gcount ≠ maxCount →
    (s.slots ≠ [] → ∃ v t, v < s.slots.length ∧ exec (.insert k p) s = .next t ∧ FilledSlot v k p s t) ∧
    (s.slots = [] → exec (.insert k p) s = .fault .noSlots)

/-- R150, R131, R57: a PATCH hit. Where the run ends within the block and slot `i` is the first valid slot that holds the
key, PATCH completes: the bytes `offset .. offset+len-1` of slot `i` become payload bytes 0 .. len-1, the response
carries flag 1 and the slot's index, and nothing else changes: no other byte, no key, no recency, no counter. -/
def Obligations.PatchWritesRun : Prop :=
  ∀ (s : State) (k : Key) (offset : BitVec 8) (len : BitVec 9) (p : Payload) (i : Nat) (c : Slot), s.state = .ready →
    offset.toNat + len.toNat ≤ 256 → s.slots[i]? = some c → c.valid = true → c.key = k →
    (∀ (j : Nat) (d : Slot), j < i → s.slots[j]? = some d → ¬(d.valid = true ∧ d.key = k)) →
    ∃ t r, exec (.patch k offset len p) s = .next t ∧ t.rsp = some r ∧ r.status = 0 ∧ r.flag = true ∧ r.slot = i ∧
      (∀ n, n < len.toNat → slotByte t i (offset.toNat + n) = payloadByte p n) ∧
      (∀ a, ¬(dataAddress i offset.toNat ≤ a ∧ a < dataAddress i offset.toNat + len.toNat) →
        Memory.read t.store a = Memory.read s.store a) ∧
      t.slots = s.slots ∧ SameRegisters s t ∧ t.port = s.port

/-- R150, R131: a PATCH of a key that no valid slot holds completes with flag 0 and changes nothing. -/
def Obligations.PatchMissChangesNothing : Prop :=
  ∀ (s : State) (k : Key) (offset : BitVec 8) (len : BitVec 9) (p : Payload), s.state = .ready →
    offset.toNat + len.toNat ≤ 256 → (∀ c ∈ s.slots, ¬(c.valid = true ∧ c.key = k)) →
    ∃ t r, exec (.patch k offset len p) s = .next t ∧ t.rsp = some r ∧ r.status = 0 ∧ r.flag = false ∧ OnlyResponds s t

/-- R183: the two value checks. A PATCH run past the end of the block ends with RANGE, whether or not its key is
resident; a LOOKUP hit with GCOUNT or HITS at 2^64-1, a LOOKUP miss with MISSES there, and an INSERT with GCOUNT there end
with OVERFLOW; nothing changes but FAULT. -/
def Obligations.ValueChecksRefuse : Prop :=
  ∀ (s : State) (k : Key) (p : Payload), s.state = .ready →
    (∀ (offset : BitVec 8) (len : BitVec 9), 256 < offset.toNat + len.toNat →
      ∃ t, exec (.patch k offset len p) s = .next t ∧ EndedWithError 4 s t) ∧
    ((∃ c ∈ s.slots, c.valid = true ∧ c.key = k) → (s.gcount.toNat = 2 ^ 64 - 1 ∨ s.hits.toNat = 2 ^ 64 - 1) →
      ∃ t, exec (.lookup k) s = .next t ∧ EndedWithError 5 s t) ∧
    ((∀ c ∈ s.slots, ¬(c.valid = true ∧ c.key = k)) → s.misses.toNat = 2 ^ 64 - 1 →
      ∃ t, exec (.lookup k) s = .next t ∧ EndedWithError 5 s t) ∧
    (s.gcount.toNat = 2 ^ 64 - 1 → ∃ t, exec (.insert k p) s = .next t ∧ EndedWithError 5 s t)

/-- R153: STATS completes while READY, reports HITS and MISSES and changes nothing; while UNALLOCATED it ends with
NOT_READY. -/
def Obligations.StatsReportsCounters : Prop :=
  (∀ q : Request, q.op = 0x8 → decodeRequest q = .ok .stats) ∧
  (∀ s : State, s.state = .ready →
    ∃ t r, exec .stats s = .next t ∧ t.rsp = some r ∧ r.status = 0 ∧ r.hits = s.hits ∧ r.misses = s.misses ∧
      r.flag = Config.undrivenFlag s.draws ∧ OnlyResponds s t) ∧
  ∀ s : State, s.state = .unallocated → ∃ t, exec .stats s = .next t ∧ EndedWithError 2 s t

/-- R156: CSHUT completes while READY: it reports HITS and MISSES as they stood, empties every slot and moves STATE to
UNALLOCATED; GCOUNT, HITS, MISSES, FAULT, the slots' other fields and every byte stay. While UNALLOCATED it ends with
NOT_READY. -/
def Obligations.CshutReportsAndReleases : Prop :=
  (∀ q : Request, q.op = 0x9 → decodeRequest q = .ok .cshut) ∧
  (∀ s : State, s.state = .ready →
    ∃ t r, exec .cshut s = .next t ∧ t.rsp = some r ∧ r.status = 0 ∧ r.hits = s.hits ∧ r.misses = s.misses ∧
      r.state = 0 ∧ r.flag = Config.undrivenFlag s.draws ∧ t.state = .unallocated ∧ t.gcount = s.gcount ∧
      t.hits = s.hits ∧ t.misses = s.misses ∧ t.fault = s.fault ∧ t.slots.length = s.slots.length ∧
      (∀ (i : Nat) (c : Slot), s.slots[i]? = some c → t.slots[i]? = some { c with valid := false }) ∧
      SameBytes s t ∧ t.port = s.port) ∧
  ∀ s : State, s.state = .unallocated → ∃ t, exec .cshut s = .next t ∧ EndedWithError 2 s t

/-! ## Rules over all commands -/

/-- R184: a request that ends with an error status changes nothing but FAULT, which takes bit `code - 1`. -/
def Obligations.ErrorsArePrecise : Prop :=
  ∀ (q : Request) (s t : State) (r : Response), performRequest q s = .next t → t.rsp = some r → r.status ≠ 0 →
    (1 ≤ r.status.toNat ∧ r.status.toNat ≤ 5) ∧ EndedWithError r.status s t

/-- R185: the status of every response is the first that applies of ILLEGAL_OP, the STATE checks, RANGE and OVERFLOW, or
OK where none does. -/
def Obligations.StatusFollowsPriority : Prop :=
  ∀ (q : Request) (s t : State) (r : Response), performRequest q s = .next t → t.rsp = some r →
    r.status = expectedStatus q s

/-- R182: every response shows STATE and FAULT as they stand after its command. -/
def Obligations.ResponseShowsStateAndFault : Prop :=
  ∀ (q : Request) (s t : State), performRequest q s = .next t →
    ∃ r, t.rsp = some r ∧ r.state = t.state.bit ∧ r.fault = t.fault

/-- R26: FAULT after a command is FAULT before it with the bit of the command's error status set, and the same FAULT
where it ends OK: a set bit stays set until reset, no command clears FAULT, CINIT and CSHUT among them, and bits 7:5 are
never set. -/
def Obligations.FaultIsSticky : Prop :=
  ∀ (q : Request) (s t : State), performRequest q s = .next t →
    (∃ r, t.rsp = some r ∧ (r.status = 0 → t.fault = s.fault) ∧
      (r.status ≠ 0 → t.fault = s.fault ||| (1#8 <<< (r.status.toNat - 1)))) ∧
    (∀ n, s.fault.getLsbD n = true → t.fault.getLsbD n = true) ∧ t.fault.extractLsb' 5 3 = s.fault.extractLsb' 5 3

/-- R25: only CINIT moves STATE from UNALLOCATED to READY, and only CSHUT moves it back. -/
def Obligations.OnlyCinitAndCshutMoveState : Prop :=
  ∀ (i : Instr) (s t : State), exec i s = .next t → t.state ≠ s.state →
    (i = .cinit ∧ s.state = .unallocated ∧ t.state = .ready) ∨ (i = .cshut ∧ s.state = .ready ∧ t.state = .unallocated)

/-- R27: a command leaves GCOUNT as it is, or is a CINIT that sets it to 0, or is an INSERT or a LOOKUP hit that adds
exactly 1, without wrap, and leaves a valid slot carrying the new value. -/
def Obligations.GcountCountsTouches : Prop :=
  ∀ (i : Instr) (s t : State), exec i s = .next t →
    t.gcount = s.gcount ∨ (i = .cinit ∧ t.gcount = 0) ∨
    (t.gcount.toNat = s.gcount.toNat + 1 ∧
      ((∃ k p, i = .insert k p) ∨ ∃ k, i = .lookup k ∧ firstMatch k s.slots ≠ none) ∧
      ∃ c ∈ t.slots, c.valid = true ∧ c.recency = t.gcount)

/-- R28: HITS and MISSES change only by CINIT, which zeroes both, and by LOOKUP, which adds exactly 1 to one of them and
leaves the other. -/
def Obligations.OnlyLookupAndCinitChangeCounts : Prop :=
  ∀ (i : Instr) (s t : State), exec i s = .next t →
    (t.hits = s.hits ∧ t.misses = s.misses) ∨ (i = .cinit ∧ t.hits = 0 ∧ t.misses = 0) ∨
    ((∃ k, i = .lookup k) ∧
      ((t.hits.toNat = s.hits.toNat + 1 ∧ t.misses = s.misses) ∨ (t.hits = s.hits ∧ t.misses.toNat = s.misses.toNat + 1)))

/-- R30, R35: no step changes the number of slots. -/
def Obligations.CapacityIsFixed : Prop :=
  ∀ s t : State, step s = .next t → t.slots.length = s.slots.length

/-- R62, R180, R226: every request is answered. From every state that meets the invariant, a step whose earliest event
is a request gives a next state, with that event and no other taken off the port, and a response. That the block always
responds is the spec's own decision (D2), and that it does so in one step, without time, is the model's (assumption 14);
that a step takes one event off the port is the model's choice (assumption 5). -/
def Obligations.EveryRequestIsAnswered : Prop :=
  ∀ (s : State) (q : Request) (rest : List PortEvent), Inv s → s.port = .request q :: rest →
    ∃ t r, step s = .next t ∧ t.rsp = some r ∧ t.port = rest

/-- R76, R6: SLOT_INDEX_WIDTH is ceil(log2(n)), at least 1: the width holds every slot's index, it is at least 1, and for
two slots or more one bit less would not do; and the slot index on every response fits it. That an index which is not
driven fits is the model's choice (assumption 9). -/
def Obligations.SlotIndexFitsItsWidth : Prop :=
  (∀ n i : Nat, i < n → i < 2 ^ Config.slotIndexWidth n) ∧
  (∀ n : Nat, 1 ≤ Config.slotIndexWidth n) ∧
  (∀ n : Nat, 2 ≤ n → 2 ^ (Config.slotIndexWidth n - 1) < n) ∧
  ∀ (q : Request) (s t : State) (r : Response), performRequest q s = .next t → t.rsp = some r →
    r.slot < 2 ^ Config.slotIndexWidth s.slots.length

/-- R188: on an error response every field but status, fault and state is a fresh draw. That a draw is a constant without
a body at the count of responses is the model's form (assumption 4). -/
def Obligations.ErrorResponseFieldsAreDraws : Prop :=
  ∀ (q : Request) (s t : State) (r : Response), performRequest q s = .next t → t.rsp = some r → r.status ≠ 0 →
    r.flag = Config.undrivenFlag s.draws ∧ r.frame = Config.undrivenFrame s.draws ∧ r.b0 = Config.undrivenB0 s.draws ∧
    r.b1 = Config.undrivenB1 s.draws ∧ r.c0 = Config.undrivenC0 s.draws ∧ r.c1 = Config.undrivenC1 s.draws ∧
    r.c2 = Config.undrivenC2 s.draws ∧ r.d0 = Config.undrivenD0 s.draws ∧ r.d1 = Config.undrivenD1 s.draws ∧
    r.payload = Config.undrivenPayload s.draws ∧
    r.slot = Config.undrivenSlot s.draws % 2 ^ Config.slotIndexWidth s.slots.length ∧
    r.hits = Config.undrivenHits s.draws ∧ r.misses = Config.undrivenMisses s.draws ∧ t.draws = s.draws + 1

/-! ## What holds across commands -/

/-- R31: the key, recency and data of slots with valid = 0 are read by no rule: two states that agree on all else take
steps to states that agree on all else, with the same response. That the response fields which are not driven agree too is
the model's choice, the form of its draws (assumption 4). -/
def Obligations.InvalidSlotContentsAreUnread : Prop :=
  ∀ s s' t : State, AgreeOnValid s s' → step s = .next t → ∃ t', step s' = .next t' ∧ AgreeOnValid t t'

/-- R32, R160: while the requester never INSERTs a resident key, no two valid slots hold the same key: reset has it so,
and every step keeps it so. -/
def Obligations.KeysStayUnique : Prop :=
  UniqueKeys State.reset ∧
    ∀ s t : State, UniqueKeys s → PortRespectsResidency s → step s = .next t → UniqueKeys t

/-- R147: an INSERT of a key whose first match is slot `j` writes its victim `v` (R146), which then is valid, holds the key
and the payload and carries the new GCOUNT; it leaves slot `j` and its bytes alone unless `v` is `j`, so that both then
hold the key, and afterwards the first match is the lower of the two. -/
def Obligations.InsertOfResidentKey : Prop :=
  ∀ (s t : State) (k : Key) (p : Payload) (j : Nat) (r : Response), firstMatch k s.slots = some j →
    exec (.insert k p) s = .next t → t.rsp = some r → r.status = 0 →
    victim s.slots = some r.slot ∧ t.slots[r.slot]? = some { valid := true, key := k, recency := t.gcount } ∧
      t.gcount.toNat = s.gcount.toNat + 1 ∧ firstMatch k t.slots = some (min j r.slot) ∧
      (∀ n, n < blockSize → slotByte t r.slot n = payloadByte p n) ∧
      (r.slot ≠ j → t.slots[j]? = s.slots[j]? ∧ ∀ n, n < blockSize → slotByte t j n = slotByte s j n)

/-- R165: after INSERT of a new key into a cache with an empty slot, LOOKUP of that key returns flag 1 and the inserted
payload and counts one hit; LOOKUP of a key that no slot held and that is not the inserted one returns flag 0 and counts
one miss. -/
def Obligations.InsertThenLookup : Prop :=
  ∀ (s : State) (k k' : Key) (p : Payload), s.state = .ready → (∃ c ∈ s.slots, c.valid = false) →
    firstMatch k s.slots = none → firstMatch k' s.slots = none → k' ≠ k →
    s.gcount.toNat + 1 < 2 ^ 64 - 1 → s.hits ≠ maxCount → s.misses ≠ maxCount →
    ∃ t, exec (.insert k p) s = .next t ∧
      (∃ u r, exec (.lookup k) t = .next u ∧ u.rsp = some r ∧ r.status = 0 ∧ r.flag = true ∧ r.payload = p ∧
        u.hits.toNat = s.hits.toNat + 1 ∧ u.misses = s.misses) ∧
      ∃ u r, exec (.lookup k') t = .next u ∧ u.rsp = some r ∧ r.status = 0 ∧ r.flag = false ∧ u.hits = s.hits ∧
        u.misses.toNat = s.misses.toNat + 1

/-- R167, R56: after a PATCH that hit, a LOOKUP of the key returns the patched bytes at their offsets and every other
byte as a LOOKUP before the PATCH would have. -/
def Obligations.PatchThenLookup : Prop :=
  ∀ (s t u w : State) (k : Key) (offset : BitVec 8) (len : BitVec 9) (p : Payload) (r ru rw : Response),
    exec (.patch k offset len p) s = .next t → t.rsp = some r → r.status = 0 → r.flag = true →
    exec (.lookup k) t = .next u → u.rsp = some ru → ru.status = 0 →
    exec (.lookup k) s = .next w → w.rsp = some rw →
    ru.flag = true ∧ ru.slot = r.slot ∧ ∀ n, n < blockSize →
      payloadByte ru.payload n =
        if offset.toNat ≤ n ∧ n < offset.toNat + len.toNat then payloadByte p (n - offset.toNat)
        else payloadByte rw.payload n

/-- R136: after CINIT and before any INSERT, every LOOKUP misses and every PATCH reports flag 0: CINIT leaves no slot
valid, no command but INSERT makes one valid, and with none valid those two report flag 0. -/
def Obligations.ColdCacheMisses : Prop :=
  (∀ s t : State, s.state = .unallocated → exec .cinit s = .next t → ∀ c ∈ t.slots, c.valid = false) ∧
  (∀ (i : Instr) (s t : State), (∀ c ∈ s.slots, c.valid = false) → (∀ k p, i ≠ .insert k p) → exec i s = .next t →
    ∀ c ∈ t.slots, c.valid = false) ∧
  ∀ (s : State) (k : Key) (offset : BitVec 8) (len : BitVec 9) (p : Payload), s.state = .ready →
    (∀ c ∈ s.slots, c.valid = false) →
    (s.misses ≠ maxCount → ∃ t r, exec (.lookup k) s = .next t ∧ t.rsp = some r ∧ r.status = 0 ∧ r.flag = false) ∧
    (offset.toNat + len.toNat ≤ 256 →
      ∃ t r, exec (.patch k offset len p) s = .next t ∧ t.rsp = some r ∧ r.status = 0 ∧ r.flag = false)

/-- R148, R166: from a state that meets the invariant, an INSERT into a full cache evicts the slot touched longest ago,
strictly below every other in recency, and with two or more slots never the one touched last. -/
def Obligations.MostRecentIsNeverEvicted : Prop :=
  ∀ (s t : State) (k : Key) (p : Payload) (r : Response), Inv s → (∀ c ∈ s.slots, c.valid = true) →
    exec (.insert k p) s = .next t → t.rsp = some r → r.status = 0 →
    ∃ c, s.slots[r.slot]? = some c ∧
      (∀ (j : Nat) (d : Slot), j ≠ r.slot → s.slots[j]? = some d → c.recency < d.recency) ∧
      (2 ≤ s.slots.length → c.recency ≠ s.gcount)

/-- R166: N+1 INSERTs of distinct keys into a fresh cache of capacity N, no other command between: the first N write
slots 0 to N-1 in order and the last writes slot 0; the first key is then gone and every other key is resident. -/
def Obligations.FillsInOrderThenEvictsFirst : Prop :=
  ∀ (s : State) (ins : List (Key × Payload)), s.state = .ready → s.gcount = 0 → s.slots ≠ [] →
    s.slots.length < 2 ^ 64 - 1 → (∀ c ∈ s.slots, c.valid = false) → ins.length = s.slots.length + 1 →
    (ins.map Prod.fst).Nodup →
    s.port = ins.map (fun kp => .request (encodeRequest (.insert kp.1 kp.2))) →
    (∀ n, n < s.slots.length →
      ∃ t r, Host.Core.run Sys2Proof.core (n + 1) s = .next t ∧ State.rsp t = some r ∧ r.status = 0 ∧ r.slot = n) ∧
    ∃ t r, Host.Core.run Sys2Proof.core (s.slots.length + 1) s = .next t ∧ State.rsp t = some r ∧ r.status = 0 ∧
      r.slot = 0 ∧
      ∀ (n : Nat) (kp : Key × Payload), ins[n]? = some kp →
        (firstMatch kp.1 (State.slots t) = none ↔ n = 0)

/-- R187: FAULT = 0 at the end of a run without reset means that no command of it ended with an error. -/
def Obligations.ZeroFaultRunHadNoError : Prop :=
  ∀ (n : Nat) (s t : State), (∀ o, .reset o ∉ s.port) → (∀ r, s.rsp = some r → r.status = 0) →
    Host.Core.run Sys2Proof.core n s = .next t → EndsWithoutError (.next t) →
    ∀ (m : Nat) (u : State) (r : Response), m ≤ n → Host.Core.run Sys2Proof.core m s = .next u → u.rsp = some r →
      r.status = 0

/-- R161, R162, R160: after a LOOKUP that performs, no command that the read path or the write path goes on to issue
INSERTs a resident key. -/
def Obligations.ReadAndWritePathsRespectResidency : Prop :=
  ∀ (s t : State) (k : Key) (r : Response) (offset : BitVec 8) (len : BitVec 9) (bytes block : Payload),
    exec (.lookup k) s = .next t → t.rsp = some r → r.status = 0 →
    (∀ i ∈ readPathNext k block r, RespectsResidency i t) ∧
      ∀ i ∈ writePathNext k offset len bytes block r, RespectsResidency i t

/-- R162: on a hit, the full block the write path writes to the controller equals the slot's data after the PATCH. -/
def Obligations.WritePathBlockEqualsSlot : Prop :=
  ∀ (s t u : State) (k : Key) (r ru : Response) (offset : BitVec 8) (len : BitVec 9) (bytes block : Payload),
    exec (.lookup k) s = .next t → t.rsp = some r → r.status = 0 → r.flag = true →
    exec (.patch k offset len bytes) t = .next u → u.rsp = some ru → ru.status = 0 →
    ru.flag = true ∧ ru.slot = r.slot ∧
      ∀ n, n < blockSize → payloadByte (writePathBlock offset len bytes block r) n = slotByte u r.slot n
end

