-- ==== Sys2Proof/Laws/Bits.lean ====
section
/-! SUPPORT. Fields of a concatenation: each part of `x ++ y` reads back. What the request word and the frame rest on. -/

namespace Sys2Proof.Machine

/-- The low part of a concatenation. -/
theorem extractLsb'_append_low {m n : Nat} (x : BitVec m) (y : BitVec n) : (x ++ y).extractLsb' 0 n = y := by
  apply BitVec.eq_of_getLsbD_eq
  intro j hj
  simp [BitVec.getLsbD_append, hj]

/-- A field that lies within the low part of a concatenation. -/
theorem extractLsb'_append_within {m n off k : Nat} (x : BitVec m) (y : BitVec n) (h : off + k ≤ n) :
    (x ++ y).extractLsb' off k = y.extractLsb' off k := by
  apply BitVec.eq_of_getLsbD_eq
  intro j hj
  simp [BitVec.getLsbD_append, hj, show off + j < n by omega]

/-- A concatenation as a number. -/
theorem toNat_append {m n : Nat} (x : BitVec m) (y : BitVec n) : (x ++ y).toNat = x.toNat * 2 ^ n + y.toNat := by
  rw [BitVec.toNat_append, Nat.shiftLeft_eq, Nat.mul_comm, Nat.two_pow_add_eq_or_of_lt y.isLt]

/-- A field of the high part of a concatenation. -/
theorem extractLsb'_append_high {m n : Nat} (x : BitVec m) (y : BitVec n) {start off k : Nat} (h : start = n + off) :
    (x ++ y).extractLsb' start k = x.extractLsb' off k := by
  subst h
  apply BitVec.eq_of_getLsbD_eq
  intro j hj
  simp [BitVec.getLsbD_append, hj, show ¬(n + off + j < n) by omega, show n + off + j - n = off + j by omega]

/-- A field of the high part of a concatenation, as a rewrite rule with a side condition on numbers. -/
theorem extractLsb'_append_above {m n : Nat} (x : BitVec m) (y : BitVec n) {start k : Nat} (h : n ≤ start) :
    (x ++ y).extractLsb' start k = x.extractLsb' (start - n) k :=
  extractLsb'_append_high x y (by omega)

/-- A field that is the whole value. -/
theorem extractLsb'_whole {m : Nat} (x : BitVec m) : x.extractLsb' 0 m = x := by
  apply BitVec.eq_of_getLsbD_eq
  intro j hj
  simp [hj]

/-- Two adjacent fields, the upper one concatenated to the lower, are one field. -/
theorem extractLsb'_adjacent {m : Nat} (x : BitVec m) {start k n hi : Nat} (h : hi = start + k) :
    x.extractLsb' hi n ++ x.extractLsb' start k = x.extractLsb' start (n + k) := by
  subst h
  apply BitVec.eq_of_getLsbD_eq
  intro j hj
  simp only [BitVec.getLsbD_append, BitVec.getLsbD_extractLsb']
  by_cases hk : j < k
  · simp [hk, show j < n + k by omega]
  · simp [hk, show j < n + k by omega, show j - k < n by omega, show start + k + (j - k) = start + j by omega]

/-- The fields of a frame read back from its assembly (R80, R81). -/
theorem unpackFields_packFields (f : FrameFields) : unpackFields (packFields f) = f := by
  obtain ⟨b0, b1, c0, c1, c2, d0, d1⟩ := f
  simp only [unpackFields, packFields, FrameFields.mk.injEq]
  refine ⟨?_, ?_, ?_, ?_, ?_, ?_, ?_⟩
  · rw [extractLsb'_append_high (off := 44) _ _ rfl, extractLsb'_append_high (off := 28) _ _ rfl,
      extractLsb'_append_high (off := 20) _ _ rfl, extractLsb'_append_high (off := 12) _ _ rfl,
      extractLsb'_append_high (off := 4) _ _ rfl, extractLsb'_append_high (off := 0) _ _ rfl, extractLsb'_whole]
  · rw [extractLsb'_append_high (off := 40) _ _ rfl, extractLsb'_append_high (off := 24) _ _ rfl,
      extractLsb'_append_high (off := 16) _ _ rfl, extractLsb'_append_high (off := 8) _ _ rfl,
      extractLsb'_append_high (off := 0) _ _ rfl, extractLsb'_append_low]
  · rw [extractLsb'_append_high (off := 32) _ _ rfl, extractLsb'_append_high (off := 16) _ _ rfl,
      extractLsb'_append_high (off := 8) _ _ rfl, extractLsb'_append_high (off := 0) _ _ rfl, extractLsb'_append_low]
  · rw [extractLsb'_append_high (off := 24) _ _ rfl, extractLsb'_append_high (off := 8) _ _ rfl,
      extractLsb'_append_high (off := 0) _ _ rfl, extractLsb'_append_low]
  · rw [extractLsb'_append_high (off := 16) _ _ rfl, extractLsb'_append_high (off := 0) _ _ rfl, extractLsb'_append_low]
  · rw [extractLsb'_append_high (off := 0) _ _ rfl, extractLsb'_append_low]
  · rw [extractLsb'_append_low]

/-- The frame with given fields, as a number (R80). -/
theorem toNat_packFields (f : FrameFields) :
    (packFields f).toNat =
      f.b0.toNat * 2 ^ 60 + f.b1.toNat * 2 ^ 56 + f.c0.toNat * 2 ^ 48 + f.c1.toNat * 2 ^ 40 + f.c2.toNat * 2 ^ 32 +
        f.d0.toNat * 2 ^ 16 + f.d1.toNat := by
  simp only [packFields, toNat_append]
  omega

/-- A frame is the assembly of its fields: they cover all 64 bits without gap or overlap (R80). -/
theorem packFields_unpackFields (f : Word) : packFields (unpackFields f) = f := by
  simp only [packFields, unpackFields]
  rw [extractLsb'_adjacent f (start := 56) (k := 4) (n := 4) (hi := 60) rfl,
    extractLsb'_adjacent f (start := 48) (k := 8) (n := 4 + 4) (hi := 56) rfl,
    extractLsb'_adjacent f (start := 40) (k := 8) (n := 4 + 4 + 8) (hi := 48) rfl,
    extractLsb'_adjacent f (start := 32) (k := 8) (n := 4 + 4 + 8 + 8) (hi := 40) rfl,
    extractLsb'_adjacent f (start := 16) (k := 16) (n := 4 + 4 + 8 + 8 + 8) (hi := 32) rfl,
    extractLsb'_adjacent f (start := 0) (k := 16) (n := 4 + 4 + 8 + 8 + 8 + 16) (hi := 16) rfl]
  exact extractLsb'_whole f

end Sys2Proof.Machine
end

