-- ==== Sys2Proof/Laws/Memory.lean ====
section
/-! SUPPORT. The laws of the data bytes: reading after a write, the canonical form, and that it determines the store. -/

namespace Sys2Proof.Machine

theorem Memory.read_of_absent {m : Memory} {x : Nat} (h : ∀ c ∈ m, c.1 ≠ x) : Memory.read m x = Memory.unlisted := by
  induction m with
  | nil => rfl
  | cons c m ih =>
    obtain ⟨a, b⟩ := c
    have ha : a ≠ x := h (a, b) (by simp)
    simp only [Memory.read, if_neg ha]
    exact ih fun c hc => h c (by simp [hc])

theorem Memory.read_append_of_absent_left {m m' : Memory} {x : Nat} (h : ∀ c ∈ m, c.1 ≠ x) :
    Memory.read (m ++ m') x = Memory.read m' x := by
  induction m with
  | nil => rfl
  | cons c m ih =>
    obtain ⟨a, b⟩ := c
    have ha : a ≠ x := h (a, b) (by simp)
    simp only [List.cons_append, Memory.read, if_neg ha]
    exact ih fun c hc => h c (by simp [hc])

theorem Memory.read_append_of_absent_right {m m' : Memory} {x : Nat} (h : ∀ c ∈ m', c.1 ≠ x) :
    Memory.read (m ++ m') x = Memory.read m x := by
  induction m with
  | nil => exact Memory.read_of_absent h
  | cons c m ih =>
    obtain ⟨a, b⟩ := c
    simp only [List.cons_append, Memory.read, ih]

theorem Memory.read_filter_of_kept {m : Memory} {p : Nat → Bool} {x : Nat} (h : p x = true) :
    Memory.read (m.filter (fun c => p c.1)) x = Memory.read m x := by
  induction m with
  | nil => rfl
  | cons c m ih =>
    obtain ⟨a, b⟩ := c
    by_cases ha : a = x
    · subst ha; simp [Memory.read, h]
    · cases hp : p a <;> simp [Memory.read, hp, ha, ih]

theorem Memory.cellsOf_range {a : Nat} {bs : List Byte} {c : Host.Cell} (h : c ∈ Memory.cellsOf a bs) :
    a ≤ c.1 ∧ c.1 < a + bs.length ∧ c.2 ≠ Memory.unlisted := by
  induction bs generalizing a with
  | nil => simp [Memory.cellsOf] at h
  | cons b bs ih =>
    simp only [Memory.cellsOf] at h
    split at h
    · have := ih h; simp only [List.length_cons]; exact ⟨by omega, by omega, this.2.2⟩
    · rcases List.mem_cons.1 h with rfl | h
      · simp only [List.length_cons]; exact ⟨by simp, by simp, by assumption⟩
      · have := ih h; simp only [List.length_cons]; exact ⟨by omega, by omega, this.2.2⟩

theorem Memory.cellsOf_sorted (a : Nat) (bs : List Byte) :
    (Memory.cellsOf a bs).Pairwise (fun c d => c.1 < d.1) := by
  induction bs generalizing a with
  | nil => simp [Memory.cellsOf]
  | cons b bs ih =>
    simp only [Memory.cellsOf]
    split
    · exact ih (a + 1)
    · refine List.pairwise_cons.2 ⟨fun d hd => ?_, ih (a + 1)⟩
      have := Memory.cellsOf_range hd
      simp only; omega

theorem Memory.read_cellsOf (a : Nat) (bs : List Byte) (x : Nat) :
    Memory.read (Memory.cellsOf a bs) x =
      if a ≤ x ∧ x < a + bs.length then bs.getD (x - a) Memory.unlisted else Memory.unlisted := by
  induction bs generalizing a with
  | nil => simp [Memory.cellsOf, Memory.read]
  | cons b bs ih =>
    have tail : x ≠ a → Memory.read (Memory.cellsOf (a + 1) bs) x =
        if a ≤ x ∧ x < a + (b :: bs).length then (b :: bs).getD (x - a) Memory.unlisted else Memory.unlisted := by
      intro hx
      rw [ih]
      by_cases h : a + 1 ≤ x ∧ x < a + 1 + bs.length
      · have h' : a ≤ x ∧ x < a + (b :: bs).length := by simp only [List.length_cons]; omega
        rw [if_pos h, if_pos h', show x - a = (x - (a + 1)) + 1 by omega]
        simp
      · have h' : ¬(a ≤ x ∧ x < a + (b :: bs).length) := by simp only [List.length_cons]; omega
        rw [if_neg h, if_neg h']
    have head : Memory.read (Memory.cellsOf (a + 1) bs) a = Memory.unlisted :=
      Memory.read_of_absent fun c hc => by have := (Memory.cellsOf_range hc).1; omega
    simp only [Memory.cellsOf]
    by_cases hx : x = a
    · subst hx
      split
      · next hb => rw [head]; simp [hb]
      · simp [Memory.read]
    · split
      · exact tail hx
      · simp only [Memory.read, if_neg (Ne.symm hx)]; exact tail hx

/-- A written run reads back byte by byte, and every other address reads as before. -/
theorem Memory.read_writeRun (m : Memory) (a : Nat) (bs : List Byte) (x : Nat) :
    Memory.read (Memory.writeRun m a bs) x =
      if a ≤ x ∧ x < a + bs.length then bs.getD (x - a) Memory.unlisted else Memory.read m x := by
  have lowAbsent : a ≤ x → ∀ c ∈ m.filter (fun c => decide (c.1 < a)), c.1 ≠ x := by
    intro hx c hc; have : c.1 < a := by simpa using (List.mem_filter.1 hc).2
    omega
  have highAbsent : x < a + bs.length → ∀ c ∈ m.filter (fun c => decide (a + bs.length ≤ c.1)), c.1 ≠ x := by
    intro hx c hc; have : a + bs.length ≤ c.1 := by simpa using (List.mem_filter.1 hc).2
    omega
  have midAbsent : ¬(a ≤ x ∧ x < a + bs.length) → ∀ c ∈ Memory.cellsOf a bs, c.1 ≠ x := by
    intro hx c hc; have := Memory.cellsOf_range hc; omega
  unfold Memory.writeRun
  by_cases h : a ≤ x ∧ x < a + bs.length
  · rw [if_pos h, Memory.read_append_of_absent_left (lowAbsent h.1),
      Memory.read_append_of_absent_right (highAbsent h.2), Memory.read_cellsOf, if_pos h]
  · rw [if_neg h]
    by_cases hlow : x < a
    · rw [Memory.read_append_of_absent_right, Memory.read_filter_of_kept (p := fun y => decide (y < a)) (by simpa using hlow)]
      intro c hc
      rcases List.mem_append.1 hc with hc | hc
      · exact midAbsent h c hc
      · exact highAbsent (by omega) c hc
    · rw [Memory.read_append_of_absent_left (lowAbsent (by omega)), Memory.read_append_of_absent_left (midAbsent h),
        Memory.read_filter_of_kept (p := fun y => decide (a + bs.length ≤ y)) (by simp; omega)]

/-- A write keeps the canonical form. -/
theorem Memory.wf_writeRun {m : Memory} (h : Memory.wf m) (a : Nat) (bs : List Byte) :
    Memory.wf (Memory.writeRun m a bs) := by
  obtain ⟨hs, hn⟩ := h
  refine ⟨?_, ?_⟩
  · refine List.pairwise_append.2 ⟨hs.filter _, List.pairwise_append.2 ⟨Memory.cellsOf_sorted a bs, hs.filter _, ?_⟩, ?_⟩
    · intro c hc d hd
      have h1 := Memory.cellsOf_range hc
      have h2 : a + bs.length ≤ d.1 := by simpa using (List.mem_filter.1 hd).2
      omega
    · intro c hc d hd
      have h1 : c.1 < a := by simpa using (List.mem_filter.1 hc).2
      rcases List.mem_append.1 hd with hd | hd
      · have := Memory.cellsOf_range hd; omega
      · have h2 : a + bs.length ≤ d.1 := by simpa using (List.mem_filter.1 hd).2
        omega
  · intro c hc
    rcases List.mem_append.1 hc with hc | hc
    · exact hn c (List.mem_filter.1 hc).1
    · rcases List.mem_append.1 hc with hc | hc
      · exact (Memory.cellsOf_range hc).2.2
      · exact hn c (List.mem_filter.1 hc).1

/-- A write below a bound lists nothing at or above it. -/
theorem Memory.bound_writeRun {m : Memory} {top : Nat} (h : ∀ c ∈ m, c.1 < top) {a : Nat} {bs : List Byte}
    (ha : a + bs.length ≤ top) : ∀ c ∈ Memory.writeRun m a bs, c.1 < top := by
  intro c hc
  rcases List.mem_append.1 hc with hc | hc
  · exact h c (List.mem_filter.1 hc).1
  · rcases List.mem_append.1 hc with hc | hc
    · have := Memory.cellsOf_range hc; omega
    · exact h c (List.mem_filter.1 hc).1

/-- In canonical form, an address is listed exactly when it does not read as an unlisted byte. -/
theorem Memory.mem_iff_read {m : Memory} (h : Memory.wf m) (a : Nat) (b : Byte) :
    (a, b) ∈ m ↔ Memory.read m a = b ∧ b ≠ Memory.unlisted := by
  induction m with
  | nil => simp [Memory.read]; exact fun h => h.symm
  | cons c m ih =>
    obtain ⟨x, y⟩ := c
    obtain ⟨hs, hn⟩ := h
    have hs' := List.pairwise_cons.1 hs
    have ih := ih ⟨hs'.2, fun c hc => hn c (by simp [hc])⟩
    by_cases hx : x = a
    · subst hx
      have absent : (x, b) ∉ m := fun hc => absurd (hs'.1 _ hc) (by simp)
      have hy : y ≠ Memory.unlisted := hn (x, y) (by simp)
      simp only [List.mem_cons, Prod.mk.injEq, true_and, absent, or_false, Memory.read, if_true]
      exact ⟨fun h => ⟨h.symm, h ▸ hy⟩, fun h => h.1.symm⟩
    · simp only [List.mem_cons, Prod.mk.injEq, Memory.read, if_neg hx, ← ih]
      exact ⟨fun h => h.resolve_left fun h => hx h.1.symm, Or.inr⟩

/-- Equal reads, equal stores: the canonical form makes the store the data it holds. -/
theorem Memory.eq_of_read_eq {m m' : Memory} (h : Memory.wf m) (h' : Memory.wf m')
    (hr : ∀ a, Memory.read m a = Memory.read m' a) : m = m' := by
  have hmem : ∀ c, c ∈ m ↔ c ∈ m' := fun ⟨a, b⟩ => by rw [Memory.mem_iff_read h, Memory.mem_iff_read h', hr]
  have nodup : ∀ {n : Memory}, Memory.wf n → n.Nodup := fun hn => hn.1.imp fun hlt heq => by simp [heq] at hlt
  refine List.Perm.eq_of_pairwise (le := fun c d => c.1 < d.1) ?_ h.1 h'.1 ((List.perm_ext_iff_of_nodup (nodup h) (nodup h')).2 hmem)
  intro c d _ _ h1 h2; omega

/-- A byte of slot `i` after a run of bytes is written to slot `i` from offset `off` (R8). -/
theorem read_memWrite_same (m : Memory) (i off n : Nat) (bs : List Byte) :
    Memory.read (memWrite m i off bs) (dataAddress i n) =
      if off ≤ n ∧ n < off + bs.length then bs.getD (n - off) 0 else Memory.read m (dataAddress i n) := by
  simp only [memWrite, Memory.read_writeRun, dataAddress]
  by_cases h : off ≤ n ∧ n < off + bs.length
  · rw [if_pos h, if_pos (by omega), show blockSize * i + n - (blockSize * i + off) = n - off by omega]
    rfl
  · rw [if_neg h, if_neg (by omega)]

/-- A run of bytes that ends within slot `i` reaches no other slot (R57). -/
theorem read_memWrite_other {m : Memory} {i j off n : Nat} {bs : List Byte} (hn : n < blockSize)
    (h : off + bs.length ≤ blockSize) (hij : j ≠ i) :
    Memory.read (memWrite m i off bs) (dataAddress j n) = Memory.read m (dataAddress j n) := by
  simp only [memWrite, Memory.read_writeRun, dataAddress]
  rw [if_neg]
  simp only [blockSize] at *
  omega

theorem length_payloadBytes (n : Nat) (p : Payload) : (payloadBytes n p).length = n := by
  simp [payloadBytes]

theorem getD_payloadBytes {n k : Nat} (p : Payload) (h : k < n) (z : Byte) :
    (payloadBytes n p).getD k z = payloadByte p k := by
  simp [payloadBytes, h]

theorem length_memRead (m : Memory) (i off n : Nat) : (memRead m i off n).length = n := by
  simp [memRead]

theorem getD_memRead {m : Memory} {i off n k : Nat} (h : k < n) (z : Byte) :
    (memRead m i off n).getD k z = Memory.read m (dataAddress i (off + k)) := by
  simp [memRead, h]

/-- The payload bus that carries a byte sequence has the sequence's byte `k` at bits `8k+7 : 8k` (R55). -/
theorem payloadByte_payloadOfBytes (bs : List Byte) {k : Nat} (h : k < blockSize) :
    payloadByte (payloadOfBytes bs) k = bs.getD k 0 := by
  induction bs generalizing k with
  | nil => simp [payloadOfBytes, payloadByte]
  | cons b bs ih =>
    simp only [payloadOfBytes, List.foldr_cons]
    rw [show List.foldr (fun (b : Byte) (acc : Payload) => (acc <<< 8) ||| b.setWidth 2048) 0 bs = payloadOfBytes bs from rfl]
    apply BitVec.eq_of_getLsbD_eq
    intro j hj
    cases k with
    | zero =>
      simp [payloadByte, hj, show j < 2048 by omega]
    | succ k =>
      have hk := congrArg (fun x => x.getLsbD j) (ih (k := k) (by omega))
      simp only [payloadByte, BitVec.getLsbD_extractLsb', hj, decide_true, Bool.true_and] at hk ⊢
      simp only [BitVec.getLsbD_or, BitVec.getLsbD_shiftLeft, BitVec.getLsbD_setWidth, List.getD_cons_succ, ← hk]
      simp only [show (8 * (k + 1) + j < 2048) by simp [blockSize] at h; omega, decide_true, Bool.true_and,
        show ¬(8 * (k + 1) + j < 8) by omega, decide_false, Bool.not_false]
      rw [BitVec.getLsbD_of_ge b _ (by omega), show 8 * (k + 1) + j - 8 = 8 * k + j by omega]
      simp

end Sys2Proof.Machine
end

