-- ==== Sys2Proof/Laws/Slots.lean ====
section
/-! SUPPORT. The laws of the slot array: what the key match, the empty-slot scan and victim selection answer. -/

namespace Sys2Proof.Machine

theorem Slot.holds_iff (c : Slot) (k : Key) : c.holds k = true ↔ c.valid = true ∧ c.key = k := by
  obtain ⟨v, ⟨d, s, b⟩, r⟩ := c
  obtain ⟨d', s', b'⟩ := k
  simp [Slot.holds, and_assoc]

/-- A scan from slot 0 upward finds slot `i` exactly when it is the first that passes. -/
theorem findIdx?_eq_some_iff_first (p : Slot → Bool) (slots : List Slot) (i : Nat) :
    slots.findIdx? p = some i ↔
      (∃ c, slots[i]? = some c ∧ p c = true) ∧ ∀ (j : Nat) (d : Slot), j < i → slots[j]? = some d → p d = false := by
  rw [List.findIdx?_eq_some_iff_getElem]
  constructor
  · rintro ⟨h, hp, hlt⟩
    refine ⟨⟨slots[i], by simp [h], hp⟩, fun j d hj hd => ?_⟩
    obtain ⟨hj', rfl⟩ := List.getElem?_eq_some_iff.1 hd
    simpa using hlt j hj
  · rintro ⟨⟨c, hc, hp⟩, hlt⟩
    obtain ⟨h, rfl⟩ := List.getElem?_eq_some_iff.1 hc
    exact ⟨h, hp, fun j hj => by simpa using hlt j _ hj (by rw [List.getElem?_eq_getElem (by omega)])⟩

theorem firstMatch_eq_some_iff (k : Key) (slots : List Slot) (i : Nat) :
    firstMatch k slots = some i ↔
      (∃ c, slots[i]? = some c ∧ c.holds k = true) ∧
        ∀ (j : Nat) (d : Slot), j < i → slots[j]? = some d → d.holds k = false :=
  findIdx?_eq_some_iff_first _ slots i

theorem firstMatch_eq_none_iff (k : Key) (slots : List Slot) :
    firstMatch k slots = none ↔ ∀ c ∈ slots, c.holds k = false := by
  simp [firstMatch, List.findIdx?_eq_none_iff]

theorem firstMatch_lt {k : Key} {slots : List Slot} {i : Nat} (h : firstMatch k slots = some i) : i < slots.length := by
  obtain ⟨⟨c, hc, -⟩, -⟩ := (firstMatch_eq_some_iff k slots i).1 h
  exact (List.getElem?_eq_some_iff.1 hc).1

/-- The key match does not read recencies: a touch leaves its answer as it was (R131, R140). -/
theorem firstMatch_modify_recency (k : Key) (i : Nat) (g : Word) (slots : List Slot) :
    firstMatch k (slots.modify i (fun c => { c with recency := g })) = firstMatch k slots := by
  unfold firstMatch
  induction slots generalizing i with
  | nil => simp
  | cons c rest ih =>
    cases i with
    | zero => rfl
    | succ i => rw [List.modify_succ_cons, List.findIdx?_cons, List.findIdx?_cons, ih]

/-- The key match after slot `v` is filled with the key: `v`, or the slot that held the key before where that one is the
earlier (R131, R147). -/
theorem firstMatch_set_holding {k : Key} {v : Nat} {c : Slot} {slots : List Slot} (hv : v < slots.length)
    (hc : c.holds k = true) :
    firstMatch k (slots.set v c) = some ((firstMatch k slots).elim v (min · v)) := by
  rw [firstMatch_eq_some_iff]
  cases h : firstMatch k slots with
  | none =>
    rw [firstMatch_eq_none_iff] at h
    refine ⟨⟨c, by simp [hv], hc⟩, fun j d hj hd => ?_⟩
    rw [List.getElem?_set_ne (by simp at hj; omega)] at hd
    exact h d (List.mem_of_getElem? hd)
  | some i =>
    obtain ⟨⟨e, he, hold⟩, hb⟩ := (firstMatch_eq_some_iff k slots i).1 h
    simp only [Option.elim_some]
    by_cases hi : i < v
    · rw [Nat.min_eq_left (by omega)]
      refine ⟨⟨e, by rw [List.getElem?_set_ne (by omega)]; exact he, hold⟩, fun j d hj hd => ?_⟩
      rw [List.getElem?_set_ne (by omega)] at hd
      exact hb j d hj hd
    · rw [Nat.min_eq_right (by omega)]
      refine ⟨⟨c, by simp [hv], hc⟩, fun j d hj hd => ?_⟩
      rw [List.getElem?_set_ne (by omega)] at hd
      exact hb j d (by omega) hd

theorem firstEmpty_eq_some_iff (slots : List Slot) (i : Nat) :
    firstEmpty slots = some i ↔
      (∃ c, slots[i]? = some c ∧ c.valid = false) ∧
        ∀ (j : Nat) (d : Slot), j < i → slots[j]? = some d → d.valid = true := by
  simpa [firstEmpty] using findIdx?_eq_some_iff_first (fun c => !c.valid) slots i

theorem firstEmpty_eq_none_iff (slots : List Slot) : firstEmpty slots = none ↔ ∀ c ∈ slots, c.valid = true := by
  simp [firstEmpty, List.findIdx?_eq_none_iff]

/-- The second loop of R146, from any point of its scan: what it answers is the running minimum or a slot still to come,
no slot still to come is below it, and every slot that the scan passed before it is strictly above it. -/
theorem leastRecentFrom_spec (slots : List Slot) (i m : Nat) (low : Word) (hm : m < i) :
    ∃ r : Word,
      ((leastRecentFrom i m low slots = m ∧ r = low) ∨
        ∃ j c, slots[j]? = some c ∧ leastRecentFrom i m low slots = i + j ∧ r = c.recency ∧ r < low ∧
          ∀ (j' : Nat) (d : Slot), j' < j → slots[j']? = some d → r < d.recency) ∧
      r ≤ low ∧ ∀ (j : Nat) (d : Slot), slots[j]? = some d → r ≤ d.recency := by
  induction slots generalizing i m low with
  | nil => exact ⟨low, .inl ⟨rfl, rfl⟩, BitVec.le_refl _, by simp⟩
  | cons c rest ih =>
    simp only [leastRecentFrom]
    by_cases hlt : c.recency < low
    · rw [if_pos hlt]
      obtain ⟨r, hr, hlow, hall⟩ := ih (i + 1) i c.recency (by omega)
      have hrlow : r < low := by bv_omega
      refine ⟨r, .inr ?_, by bv_omega, ?_⟩
      · rcases hr with ⟨he, rfl⟩ | ⟨j, d, hd, he, rfl, hdlt, hbefore⟩
        · exact ⟨0, c, rfl, by simp [he], rfl, hlt, by omega⟩
        · refine ⟨j + 1, d, by simpa using hd, by rw [he]; omega, rfl, hrlow, fun j' e hj' he' => ?_⟩
          cases j' with
          | zero => have : c = e := by simpa using he'
                    exact this ▸ hdlt
          | succ j' => exact hbefore j' e (by omega) (by simpa using he')
      · intro j d hd
        cases j with
        | zero => have : c = d := by simpa using hd
                  exact this ▸ hlow
        | succ j => exact hall j d (by simpa using hd)
    · rw [if_neg hlt]
      obtain ⟨r, hr, hlow, hall⟩ := ih (i + 1) m low (by omega)
      refine ⟨r, ?_, hlow, ?_⟩
      · rcases hr with h | ⟨j, d, hd, he, rfl, hdlt, hbefore⟩
        · exact .inl h
        · refine .inr ⟨j + 1, d, by simpa using hd, by rw [he]; omega, rfl, hdlt, fun j' e hj' he' => ?_⟩
          cases j' with
          | zero => have : c = e := by simpa using he'
                    subst this; bv_omega
          | succ j' => exact hbefore j' e (by omega) (by simpa using he')
      · intro j d hd
        cases j with
        | zero => have : c = d := by simpa using hd
                  subst this; bv_omega
        | succ j => exact hall j d (by simpa using hd)

theorem victim_of_firstEmpty {slots : List Slot} {i : Nat} (h : firstEmpty slots = some i) : victim slots = some i := by
  simp [victim, h]

/-- With no empty slot, the victim is the slot of smallest recency, the first one on a tie (R146). -/
theorem victim_of_full {slots : List Slot} (hne : slots ≠ []) (h : firstEmpty slots = none) :
    ∃ v c, victim slots = some v ∧ slots[v]? = some c ∧
      ∀ (j : Nat) (d : Slot), slots[j]? = some d → c.recency ≤ d.recency ∧ (j < v → c.recency < d.recency) := by
  cases slots with
  | nil => exact absurd rfl hne
  | cons a rest =>
    obtain ⟨r, hr, hlow, hall⟩ := leastRecentFrom_spec rest 1 0 a.recency (by omega)
    have hv : victim (a :: rest) = some (leastRecentFrom 1 0 a.recency rest) := by simp [victim, h]
    rcases hr with ⟨he, rfl⟩ | ⟨j, c, hc, he, rfl, hclt, hbefore⟩
    · refine ⟨0, a, by rw [hv, he], rfl, fun j d hd => ⟨?_, by omega⟩⟩
      cases j with
      | zero => have : a = d := by simpa using hd
                exact this ▸ BitVec.le_refl _
      | succ j => exact hall j d (by simpa using hd)
    · refine ⟨1 + j, c, by rw [hv, he], by rw [Nat.add_comm]; simpa using hc, fun j' d hd => ?_⟩
      cases j' with
      | zero => have : a = d := by simpa using hd
                subst this; exact ⟨hlow, fun _ => hclt⟩
      | succ j' => exact ⟨hall j' d (by simpa using hd), fun hj => hbefore j' d (by omega) (by simpa using hd)⟩

theorem victim_lt {slots : List Slot} {v : Nat} (h : victim slots = some v) : v < slots.length := by
  cases he : firstEmpty slots with
  | some i =>
    rw [victim_of_firstEmpty he] at h
    obtain ⟨⟨c, hc, -⟩, -⟩ := (firstEmpty_eq_some_iff slots i).1 he
    obtain rfl := Option.some.inj h
    exact (List.getElem?_eq_some_iff.1 hc).1
  | none =>
    have hne : slots ≠ [] := by rintro rfl; simp [victim, firstEmpty] at h
    obtain ⟨w, c, hw, hc, -⟩ := victim_of_full hne he
    obtain rfl := Option.some.inj (h.symm.trans hw)
    exact (List.getElem?_eq_some_iff.1 hc).1

theorem exists_victim {slots : List Slot} (h : slots ≠ []) : ∃ v, victim slots = some v := by
  cases he : firstEmpty slots with
  | some i => exact ⟨i, victim_of_firstEmpty he⟩
  | none => obtain ⟨v, -, hv, -⟩ := victim_of_full h he; exact ⟨v, hv⟩

@[simp] theorem length_invalidateAll (slots : List Slot) : (invalidateAll slots).length = slots.length := by
  simp [invalidateAll]

theorem valid_of_mem_invalidateAll {slots : List Slot} {c : Slot} (h : c ∈ invalidateAll slots) : c.valid = false := by
  obtain ⟨d, -, rfl⟩ := List.mem_map.1 h; rfl

end Sys2Proof.Machine
end

