-- ==== Sys2Proof/Laws/State.lean ====
section
/-! SUPPORT. One lemma per state field and state operation, so that no later proof unfolds a record update. -/

namespace Sys2Proof.Machine

variable (s : State)

/-! ## respond -/

@[simp] theorem respond_state (st : BitVec 4) (d : Driven) : (respond s st d).state = s.state := rfl
@[simp] theorem respond_gcount (st : BitVec 4) (d : Driven) : (respond s st d).gcount = s.gcount := rfl
@[simp] theorem respond_hits (st : BitVec 4) (d : Driven) : (respond s st d).hits = s.hits := rfl
@[simp] theorem respond_misses (st : BitVec 4) (d : Driven) : (respond s st d).misses = s.misses := rfl
@[simp] theorem respond_fault (st : BitVec 4) (d : Driven) : (respond s st d).fault = s.fault := rfl
@[simp] theorem respond_slots (st : BitVec 4) (d : Driven) : (respond s st d).slots = s.slots := rfl
@[simp] theorem respond_store (st : BitVec 4) (d : Driven) : (respond s st d).store = s.store := rfl
@[simp] theorem respond_port (st : BitVec 4) (d : Driven) : (respond s st d).port = s.port := rfl
@[simp] theorem respond_rsp (st : BitVec 4) (d : Driven) : (respond s st d).rsp = some (responseOf s st d) := rfl
@[simp] theorem respond_draws (st : BitVec 4) (d : Driven) : (respond s st d).draws = s.draws + 1 := rfl

/-! ## The response's fields -/

@[simp] theorem responseOf_status (st : BitVec 4) (d : Driven) : (responseOf s st d).status = st := rfl
@[simp] theorem responseOf_fault (st : BitVec 4) (d : Driven) : (responseOf s st d).fault = s.fault := rfl
@[simp] theorem responseOf_state (st : BitVec 4) (d : Driven) : (responseOf s st d).state = s.state.bit := rfl

/-! ## touchSlot -/

@[simp] theorem touchSlot_state (i : Nat) : (touchSlot i s).state = s.state := rfl
@[simp] theorem touchSlot_gcount (i : Nat) : (touchSlot i s).gcount = s.gcount + 1 := rfl
@[simp] theorem touchSlot_hits (i : Nat) : (touchSlot i s).hits = s.hits := rfl
@[simp] theorem touchSlot_misses (i : Nat) : (touchSlot i s).misses = s.misses := rfl
@[simp] theorem touchSlot_fault (i : Nat) : (touchSlot i s).fault = s.fault := rfl
@[simp] theorem touchSlot_slots (i : Nat) :
    (touchSlot i s).slots = s.slots.modify i (fun c => { c with recency := s.gcount + 1 }) := rfl
@[simp] theorem touchSlot_store (i : Nat) : (touchSlot i s).store = s.store := rfl
@[simp] theorem touchSlot_rsp (i : Nat) : (touchSlot i s).rsp = s.rsp := rfl
@[simp] theorem touchSlot_port (i : Nat) : (touchSlot i s).port = s.port := rfl
@[simp] theorem touchSlot_draws (i : Nat) : (touchSlot i s).draws = s.draws := rfl

/-! ## fillSlot -/

@[simp] theorem fillSlot_state (v : Nat) (k : Key) (p : Payload) : (fillSlot v k p s).state = s.state := rfl
@[simp] theorem fillSlot_gcount (v : Nat) (k : Key) (p : Payload) : (fillSlot v k p s).gcount = s.gcount + 1 := rfl
@[simp] theorem fillSlot_hits (v : Nat) (k : Key) (p : Payload) : (fillSlot v k p s).hits = s.hits := rfl
@[simp] theorem fillSlot_misses (v : Nat) (k : Key) (p : Payload) : (fillSlot v k p s).misses = s.misses := rfl
@[simp] theorem fillSlot_fault (v : Nat) (k : Key) (p : Payload) : (fillSlot v k p s).fault = s.fault := rfl
@[simp] theorem fillSlot_slots (v : Nat) (k : Key) (p : Payload) :
    (fillSlot v k p s).slots = s.slots.set v { valid := true, key := k, recency := s.gcount + 1 } := rfl
@[simp] theorem fillSlot_store (v : Nat) (k : Key) (p : Payload) :
    (fillSlot v k p s).store = memWrite s.store v 0 (payloadBytes blockSize p) := rfl
@[simp] theorem fillSlot_rsp (v : Nat) (k : Key) (p : Payload) : (fillSlot v k p s).rsp = s.rsp := rfl
@[simp] theorem fillSlot_port (v : Nat) (k : Key) (p : Payload) : (fillSlot v k p s).port = s.port := rfl
@[simp] theorem fillSlot_draws (v : Nat) (k : Key) (p : Payload) : (fillSlot v k p s).draws = s.draws := rfl

/-! ## applyReset -/

@[simp] theorem applyReset_state : (applyReset s).state = .unallocated := rfl
@[simp] theorem applyReset_gcount : (applyReset s).gcount = 0 := rfl
@[simp] theorem applyReset_hits : (applyReset s).hits = 0 := rfl
@[simp] theorem applyReset_misses : (applyReset s).misses = 0 := rfl
@[simp] theorem applyReset_fault : (applyReset s).fault = 0 := rfl
@[simp] theorem applyReset_slots : (applyReset s).slots = List.replicate s.slots.length Slot.reset := rfl
@[simp] theorem applyReset_store : (applyReset s).store = [] := rfl
@[simp] theorem applyReset_rsp : (applyReset s).rsp = none := rfl
@[simp] theorem applyReset_port : (applyReset s).port = s.port := rfl
@[simp] theorem applyReset_draws : (applyReset s).draws = s.draws := rfl

end Sys2Proof.Machine
end

