-- ==== Sys2Proof/Laws/Exec.lean ====
section
/-! SUPPORT. What each command can do, said once: its outcomes as a short list of cases, so that a later proof splits on
the list and never unfolds a meaning. -/

namespace Sys2Proof.Machine

variable {s : State}

theorem whenReady_of_ready (h : s.state = .ready) (body : Host.Outcome State Fault Refusal) :
    whenReady s body = body := by
  simp [whenReady, h]

theorem whenReady_of_unallocated (h : s.state = .unallocated) (body : Host.Outcome State Fault Refusal) :
    whenReady s body = raiseError .notReady s := by
  simp [whenReady, h]

/-- CINIT: performs while UNALLOCATED, ALREADY_READY while READY. -/
theorem execCinit_cases (s : State) :
    (s.state = .ready ∧ execCinit s = raiseError .alreadyReady s) ∨
    (s.state = .unallocated ∧
      execCinit s =
        finish { s with slots := invalidateAll s.slots, gcount := 0, hits := 0, misses := 0, state := .ready } {}) := by
  cases h : s.state <;> simp [execCinit, h]

/-- LOOKUP: NOT_READY, a miss, a hit, or OVERFLOW of the counter that the outcome would advance. -/
theorem execLookup_cases (k : Key) (s : State) :
    (s.state = .unallocated ∧ execLookup k s = raiseError .notReady s) ∨
    (s.state = .ready ∧ firstMatch k s.slots = none ∧ s.misses = maxCount ∧ execLookup k s = raiseError .overflow s) ∨
    (s.state = .ready ∧ firstMatch k s.slots = none ∧ s.misses ≠ maxCount ∧
      execLookup k s = finish { s with misses := s.misses + 1 } { flag := some false }) ∨
    (∃ i, s.state = .ready ∧ firstMatch k s.slots = some i ∧ (s.gcount = maxCount ∨ s.hits = maxCount) ∧
      execLookup k s = raiseError .overflow s) ∨
    (∃ i, s.state = .ready ∧ firstMatch k s.slots = some i ∧ s.gcount ≠ maxCount ∧ s.hits ≠ maxCount ∧
      execLookup k s =
        finish { touchSlot i s with hits := s.hits + 1 }
          { flag := some true, payload := some (payloadOfBytes (memRead s.store i 0 blockSize)), slot := some i }) := by
  unfold execLookup
  cases h : s.state with
  | unallocated => exact .inl ⟨rfl, by rw [whenReady_of_unallocated h]⟩
  | ready =>
    rw [whenReady_of_ready h]
    cases hm : firstMatch k s.slots with
    | none =>
      by_cases hc : s.misses = maxCount
      · exact .inr (.inl ⟨rfl, rfl, hc, by simp only [if_pos hc]⟩)
      · exact .inr (.inr (.inl ⟨rfl, rfl, hc, by simp only [if_neg hc]⟩))
    | some i =>
      by_cases hc : s.gcount = maxCount ∨ s.hits = maxCount
      · exact .inr (.inr (.inr (.inl ⟨i, rfl, rfl, hc, by simp only [if_pos hc]⟩)))
      · exact .inr (.inr (.inr (.inr ⟨i, rfl, rfl, fun h => hc (.inl h), fun h => hc (.inr h), by simp only [if_neg hc]⟩)))

/-- INSERT: NOT_READY, OVERFLOW, the victim filled, or no slot to fill. -/
theorem execInsert_cases (k : Key) (p : Payload) (s : State) :
    (s.state = .unallocated ∧ execInsert k p s = raiseError .notReady s) ∨
    (s.state = .ready ∧ s.gcount = maxCount ∧ execInsert k p s = raiseError .overflow s) ∨
    (s.state = .ready ∧ s.gcount ≠ maxCount ∧ s.slots = [] ∧ execInsert k p s = .fault .noSlots) ∨
    (∃ v, s.state = .ready ∧ s.gcount ≠ maxCount ∧ victim s.slots = some v ∧
      execInsert k p s = finish (fillSlot v k p s) { slot := some v }) := by
  unfold execInsert
  cases h : s.state with
  | unallocated => exact .inl ⟨rfl, by rw [whenReady_of_unallocated h]⟩
  | ready =>
    rw [whenReady_of_ready h]
    by_cases hc : s.gcount = maxCount
    · exact .inr (.inl ⟨rfl, hc, by simp only [if_pos hc]⟩)
    · cases hv : victim s.slots with
      | none =>
        refine .inr (.inr (.inl ⟨rfl, hc, ?_, by simp only [if_neg hc]⟩))
        by_contra hne
        obtain ⟨v, hv'⟩ := exists_victim hne
        simp [hv] at hv'
      | some v => exact .inr (.inr (.inr ⟨v, rfl, hc, rfl, by simp only [if_neg hc]⟩))

/-- PATCH: NOT_READY, RANGE, a miss, or a run written. -/
theorem execPatch_cases (k : Key) (offset : BitVec 8) (len : BitVec 9) (p : Payload) (s : State) :
    (s.state = .unallocated ∧ execPatch k offset len p s = raiseError .notReady s) ∨
    (s.state = .ready ∧ 256 < offset.toNat + len.toNat ∧ execPatch k offset len p s = raiseError .range s) ∨
    (s.state = .ready ∧ offset.toNat + len.toNat ≤ 256 ∧ firstMatch k s.slots = none ∧
      execPatch k offset len p s = finish s { flag := some false }) ∨
    (∃ i, s.state = .ready ∧ offset.toNat + len.toNat ≤ 256 ∧ firstMatch k s.slots = some i ∧
      execPatch k offset len p s =
        finish { s with store := memWrite s.store i offset.toNat (payloadBytes len.toNat p) }
          { flag := some true, slot := some i }) := by
  unfold execPatch
  cases h : s.state with
  | unallocated => exact .inl ⟨rfl, by rw [whenReady_of_unallocated h]⟩
  | ready =>
    rw [whenReady_of_ready h]
    by_cases hc : 256 < offset.toNat + len.toNat
    · exact .inr (.inl ⟨rfl, hc, by simp [runCrossesEnd, hc]⟩)
    · have hc' : runCrossesEnd offset len = false := by simpa [runCrossesEnd] using hc
      cases hm : firstMatch k s.slots with
      | none => exact .inr (.inr (.inl ⟨rfl, by omega, rfl, by simp [hc']⟩))
      | some i => exact .inr (.inr (.inr ⟨i, rfl, by omega, rfl, by simp [hc']⟩))

/-- STATS: NOT_READY, or the counters. -/
theorem execStats_cases (s : State) :
    (s.state = .unallocated ∧ execStats s = raiseError .notReady s) ∨
    (s.state = .ready ∧ execStats s = finish s { hits := some s.hits, misses := some s.misses }) := by
  cases h : s.state <;> simp [execStats, whenReady, h]

/-- CSHUT: NOT_READY, or the release. -/
theorem execCshut_cases (s : State) :
    (s.state = .unallocated ∧ execCshut s = raiseError .notReady s) ∨
    (s.state = .ready ∧
      execCshut s =
        finish { s with slots := invalidateAll s.slots, state := .unallocated }
          { hits := some s.hits, misses := some s.misses }) := by
  cases h : s.state <;> simp [execCshut, whenReady, h]

/-- What every command does that every later proof needs: it raises an error, or finishes from a state with the same
FAULT, port, draws and number of slots, driving only a slot index that is one; or, with no slots, it stops. -/
theorem exec_cases (i : Instr) (s : State) :
    (∃ e, exec i s = raiseError e s) ∨
    (∃ s' d, exec i s = finish s' d ∧ s'.fault = s.fault ∧ s'.port = s.port ∧ s'.draws = s.draws ∧
      s'.slots.length = s.slots.length ∧ ∀ n, d.slot = some n → n < s.slots.length) ∨
    (s.slots = [] ∧ exec i s = .fault .noSlots) := by
  cases i with
  | encode => exact .inr (.inl ⟨_, _, rfl, rfl, rfl, rfl, rfl, by simp⟩)
  | decode => exact .inr (.inl ⟨_, _, rfl, rfl, rfl, rfl, rfl, by simp⟩)
  | isok => exact .inr (.inl ⟨_, _, rfl, rfl, rfl, rfl, rfl, by simp⟩)
  | cinit =>
    rcases execCinit_cases s with ⟨-, h⟩ | ⟨-, h⟩
    · exact .inl ⟨_, h⟩
    · exact .inr (.inl ⟨_, _, h, rfl, rfl, rfl, by simp, by simp⟩)
  | lookup k =>
    rcases execLookup_cases k s with ⟨-, h⟩ | ⟨-, -, -, h⟩ | ⟨-, -, -, h⟩ | ⟨i, -, -, -, h⟩ | ⟨i, -, hm, -, -, h⟩
    · exact .inl ⟨_, h⟩
    · exact .inl ⟨_, h⟩
    · exact .inr (.inl ⟨_, _, h, rfl, rfl, rfl, rfl, by simp⟩)
    · exact .inl ⟨_, h⟩
    · exact .inr (.inl ⟨_, _, h, rfl, rfl, rfl, by simp, fun n hn => by simp at hn; exact hn ▸ firstMatch_lt hm⟩)
  | insert k p =>
    rcases execInsert_cases k p s with ⟨-, h⟩ | ⟨-, -, h⟩ | ⟨-, -, hs, h⟩ | ⟨v, -, -, hv, h⟩
    · exact .inl ⟨_, h⟩
    · exact .inl ⟨_, h⟩
    · exact .inr (.inr ⟨hs, h⟩)
    · exact .inr (.inl ⟨_, _, h, rfl, rfl, rfl, by simp, fun n hn => by simp at hn; exact hn ▸ victim_lt hv⟩)
  | patch k offset len p =>
    rcases execPatch_cases k offset len p s with ⟨-, h⟩ | ⟨-, -, h⟩ | ⟨-, -, -, h⟩ | ⟨i, -, -, hm, h⟩
    · exact .inl ⟨_, h⟩
    · exact .inl ⟨_, h⟩
    · exact .inr (.inl ⟨_, _, h, rfl, rfl, rfl, rfl, by simp⟩)
    · exact .inr (.inl ⟨_, _, h, rfl, rfl, rfl, rfl, fun n hn => by simp at hn; exact hn ▸ firstMatch_lt hm⟩)
  | stats =>
    rcases execStats_cases s with ⟨-, h⟩ | ⟨-, h⟩
    · exact .inl ⟨_, h⟩
    · exact .inr (.inl ⟨_, _, h, rfl, rfl, rfl, rfl, by simp⟩)
  | cshut =>
    rcases execCshut_cases s with ⟨-, h⟩ | ⟨-, h⟩
    · exact .inl ⟨_, h⟩
    · exact .inr (.inl ⟨_, _, h, rfl, rfl, rfl, by simp, by simp⟩)

/-- The decoder rejects exactly the requests whose op is reserved, and by that name (R75). -/
theorem decodeRequest_cases (r : Request) :
    (r.wellFormed = true ∧ ∃ i, decodeRequest r = .ok i) ∨
    (r.wellFormed = false ∧ decodeRequest r = .error (.reservedOp r.op)) := by
  have hop := r.op.isLt
  unfold decodeRequest Request.wellFormed opAssigned
  split
  case h_10 h1 h2 h3 h4 h5 h6 h7 h8 h9 =>
    refine .inr ⟨?_, rfl⟩
    change ¬_ at h1 h2 h3 h4 h5 h6 h7 h8 h9
    simp only [Bool.and_eq_false_iff, decide_eq_false_iff_not]
    omega
  all_goals next h => exact .inl ⟨by rw [h]; rfl, _, rfl⟩

/-- What a request can do: the command its op names, or ILLEGAL_OP. -/
theorem performRequest_cases (r : Request) (s : State) :
    (∃ i, r.wellFormed = true ∧ decodeRequest r = .ok i ∧ performRequest r s = exec i s) ∨
    (r.wellFormed = false ∧ performRequest r s = raiseError .illegalOp s) := by
  rcases decodeRequest_cases r with ⟨hw, i, hi⟩ | ⟨hw, he⟩
  · exact .inl ⟨i, hw, hi, by simp [performRequest, hi]⟩
  · exact .inr ⟨hw, by simp [performRequest, he]⟩

/-- What every request does, in the terms of `exec_cases`. -/
theorem performRequest_answers (r : Request) (s : State) :
    (∃ e, performRequest r s = raiseError e s) ∨
    (∃ s' d, performRequest r s = finish s' d ∧ s'.fault = s.fault ∧ s'.port = s.port ∧ s'.draws = s.draws ∧
      s'.slots.length = s.slots.length ∧ ∀ n, d.slot = some n → n < s.slots.length) ∨
    (s.slots = [] ∧ performRequest r s = .fault .noSlots) := by
  rcases performRequest_cases r s with ⟨i, -, -, h⟩ | ⟨-, h⟩
  · rw [h]; exact exec_cases i s
  · exact .inl ⟨_, h⟩

/-- What a step can do: nothing, a reset, a refusal, or a request. -/
theorem step_cases (s : State) :
    (s.port = [] ∧ step s = .next s) ∨
    (∃ r rest, s.port = .request r :: rest ∧ step s = performRequest r { s with port := rest }) ∨
    (∃ r r' rest, s.port = .overlap r r' :: rest ∧ step s = .refused .overlappingRequests) ∨
    (∃ o rest, s.port = .reset o :: rest ∧ step s = .next (applyReset { s with port := rest })) := by
  unfold step runPort
  cases h : s.port with
  | nil => exact .inl ⟨rfl, rfl⟩
  | cons e rest =>
    cases e with
    | request r => exact .inr (.inl ⟨r, rest, rfl, rfl⟩)
    | overlap r r' => exact .inr (.inr (.inl ⟨r, r', rest, rfl, rfl⟩))
    | reset o => exact .inr (.inr (.inr ⟨o, rest, rfl, rfl⟩))

end Sys2Proof.Machine
end

