-- ==== Sys2Proof/Laws/PerInstr.lean ====
section
/-! SUPPORT. For every command, as syntax: its request carries its op (R74), the op is assigned,
and the decoder gives the command back. -/

namespace Sys2Proof.Laws.Encoding

/-- What is said of each command. -/
def Statement (i : Instr) : Prop :=
  (encodeRequest i).op = opcodeOf i ∧ (encodeRequest i).wellFormed = true ∧ decodeRequest (encodeRequest i) = .ok i

theorem encode (b0 b1 c0 c1 c2 d0 d1 : Word) : Statement (.encode b0 b1 c0 c1 c2 d0 d1) := ⟨rfl, rfl, rfl⟩
theorem decode (frame : Word) : Statement (.decode frame) := ⟨rfl, rfl, rfl⟩
theorem isok (frame : Word) : Statement (.isok frame) := ⟨rfl, rfl, rfl⟩
theorem cinit : Statement .cinit := ⟨rfl, rfl, rfl⟩
theorem lookup (key : Key) : Statement (.lookup key) := ⟨rfl, rfl, rfl⟩
theorem insert (key : Key) (payload : Payload) : Statement (.insert key payload) := ⟨rfl, rfl, rfl⟩
theorem patch (key : Key) (offset : BitVec 8) (len : BitVec 9) (payload : Payload) :
    Statement (.patch key offset len payload) := ⟨rfl, rfl, rfl⟩
theorem stats : Statement .stats := ⟨rfl, rfl, rfl⟩
theorem cshut : Statement .cshut := ⟨rfl, rfl, rfl⟩

end Sys2Proof.Laws.Encoding
end

