-- ==== Sys2Proof/Tests/Slice0.lean ====
section
/-! SUPPORT. The model's own tests: the form check, decoding of words written out from the spec's tables, one-step tests
with results from the spec's examples and vectors (95_test_vectors.md), and for every obligation with hypotheses a
concrete input that meets them. -/

namespace Sys2Proof.Tests

open Sys2Proof Sys2Proof.Machine

/- One theorem at a time: many kernel evaluations at once need more threads than the memory limit leaves room for. -/
set_option Elab.async false

/-! ## Small states -/

/-- A valid slot. -/
def held (k : Key) (recency : Word) : Slot := { valid := true, key := k, recency := recency }

/-- An empty slot with stale contents (R31). -/
def stale (k : Key) (recency : Word) : Slot := { valid := false, key := k, recency := recency }

/-- A READY block with the given slots, counters and data bytes. -/
def readyWith (slots : List Slot) (gcount hits misses : Word) (store : Memory) : State :=
  { state := .ready, gcount := gcount, hits := hits, misses := misses, fault := 0, slots := slots, store := store,
    rsp := none, port := [], draws := 0 }

/-- A state and what waits at its port. -/
def waiting (s : State) (port : List PortEvent) : State := { s with port := port }

/-- What a command leaves, where it gives a next state. -/
def seen {α : Type} (o : Host.Outcome State Fault Refusal) (f : State → α) : Option α :=
  match o with
  | .next t => some (f t)
  | .fault _ => none
  | .refused _ => none

/-- What the response shows. -/
def shown {α : Type} (o : Host.Outcome State Fault Refusal) (f : Response → α) : Option α :=
  (seen o State.rsp).bind (Option.map f)

/-- Key (5,6,7). -/
def keyA : Key := { dev := 5, sector := 6, block := 7 }
/-- Key (5,6,8). -/
def keyB : Key := { dev := 5, sector := 6, block := 8 }
/-- Key (9,9,9), held by no slot below. -/
def keyC : Key := { dev := 9, sector := 9, block := 9 }

/-- Right after reset, with two slots. -/
def cold : State := State.resetWith 2

/-- After CINIT, with two slots. -/
def empty2 : State := readyWith (List.replicate 2 Slot.reset) 0 0 0 []

/-- Three slots: `keyA` in slot 0, `keyB` in slot 1, slot 2 empty with a stale copy of `keyC`. Slot 1 has first byte 11
and last byte EE (hexadecimal). -/
def warm : State := readyWith [held keyA 1, held keyB 2, stale keyC 9] 2 0 5 [(256, 0x11#8), (511, 0xEE#8)]

/-- Two slots, both valid, slot 1 the less recent. -/
def full : State := readyWith [held keyA 4, held keyB 3] 4 1 0 [(0, 0xAA#8)]

/-- One slot, valid. -/
def single : State := readyWith [held keyA 1] 1 0 0 []

/-- The start of V83: slot 0 valid, slot 1 empty, GCOUNT at its maximum. -/
def spent : State := readyWith [held keyA 1, Slot.reset] maxCount 0 0 []

/-- `warm` after a CSHUT. -/
def shut : State := { warm with state := .unallocated, slots := [stale keyA 1, stale keyB 2, stale keyC 9] }

/-! ## The form check (R75) -/

theorem test_reserved_ops_are_refused :
    ∀ op ∈ [0x0#4, 0xA#4, 0xB#4, 0xC#4, 0xD#4, 0xE#4, 0xF#4], Request.wellFormed { Request.zero with op := op } = false := by
  decide

theorem test_assigned_ops_are_accepted :
    ∀ op ∈ [0x1#4, 0x2#4, 0x3#4, 0x4#4, 0x5#4, 0x6#4, 0x7#4, 0x8#4, 0x9#4],
      Request.wellFormed { Request.zero with op := op } = true := by
  decide

/-! ## Decoding (R72, R74): op in bits 3:0, each field of R72 above the one before it -/

/-- V4's operands: b0 at bit 68, b1 at 132, c0 at 196, c1 at 260, c2 at 324, d0 at 388, d1 at 452. -/
theorem test_decode_encode_word :
    decodeTableWord 2621 (0x1 + 0xA * 2 ^ 68 + 0x5 * 2 ^ 132 + 0xDE * 2 ^ 196 + 0xAD * 2 ^ 260 + 0xBE * 2 ^ 324 +
      0xEFCA * 2 ^ 388 + 0xFE01 * 2 ^ 452) = some (.encode 0xA 0x5 0xDE 0xAD 0xBE 0xEFCA 0xFE01) := by
  decide +kernel

/-- The frame of V18, at bit 4. -/
theorem test_decode_decode_word :
    decodeTableWord 2621 (0x2 + 0xA5DEADBEEFCAFE01 * 2 ^ 4) = some (.decode 0xA5DEADBEEFCAFE01) := by
  decide +kernel

theorem test_decode_isok_word :
    decodeTableWord 2621 (0x3 + 0x1104030100100020 * 2 ^ 4) = some (.isok 0x1104030100100020) := by
  decide +kernel

theorem test_decode_cinit_word : decodeTableWord 4 0x4 = some .cinit := by decide

/-- Key (0,3,7) of program P2: dev at bit 516, sector at 524, block at 540. -/
theorem test_decode_lookup_word :
    decodeTableWord 2621 (0x5 + 3 * 2 ^ 524 + 7 * 2 ^ 540) = some (.lookup ⟨0, 3, 7⟩) := by
  decide +kernel

/-- `INSERT 2, 7, 9, bytes(1, 2)`: payload byte 0 at bit 556, byte 1 at 564. -/
theorem test_decode_insert_word :
    decodeTableWord 2621 (0x6 + 2 * 2 ^ 516 + 7 * 2 ^ 524 + 9 * 2 ^ 540 + 1 * 2 ^ 556 + 2 * 2 ^ 564) =
      some (.insert ⟨2, 7, 9⟩ 0x0201) := by
  decide +kernel

/-- Step 5 of program P2: `PATCH 0, 3, 7, 2, 4, bytes(0xDE, 0xAD, 0xBE, 0xEF)`: offset at bit 2604, len at 2612. -/
theorem test_decode_patch_word :
    decodeTableWord 2621 (0x7 + 3 * 2 ^ 524 + 7 * 2 ^ 540 + 0xDE * 2 ^ 556 + 0xAD * 2 ^ 564 + 0xBE * 2 ^ 572 +
      0xEF * 2 ^ 580 + 2 * 2 ^ 2604 + 4 * 2 ^ 2612) = some (.patch ⟨0, 3, 7⟩ 2 4 0xEFBEADDE) := by
  decide +kernel

/-- The largest len, 511 (V67). -/
theorem test_decode_patch_longest :
    decodeTableWord 2621 (0x7 + 255 * 2 ^ 2604 + 511 * 2 ^ 2612) = some (.patch ⟨0, 0, 0⟩ 255 511 0) := by
  decide +kernel

theorem test_decode_stats_word : decodeTableWord 4 0x8 = some .stats := by decide

theorem test_decode_cshut_word : decodeTableWord 4 0x9 = some .cshut := by decide

/-! ## One step, results from the spec's examples and vectors -/

/-- V2, V5. -/
theorem test_encode :
    shown (exec (.encode 1 1 0x04 0x03 0x01 0x0010 0x0020) cold) (·.frame) = some 0x1104030100100020 ∧
      shown (exec (.encode 0x1F 0 0x1FF 0 0 0x12345 0) cold) (·.frame) = some 0xF0FF000023450000 := by
  decide +kernel

/-- V19. -/
theorem test_decode :
    shown (exec (.decode 0x0123456789ABCDEF) full) (fun r => (r.b0, r.b1, r.c0, r.c1, r.c2, r.d0, r.d1)) =
      some (0x0, 0x1, 0x23, 0x45, 0x67, 0x89AB, 0xCDEF) := by
  decide +kernel

/-- V22, V23, V24, V27, V28, V30. -/
theorem test_isok :
    [0x11FFFFFFFFFFFFFF, 0x1000000000000000, 0x0100000000000000, 0x3100000000000000, 0x1F00000000000000,
        0x0011000000000000].map (fun f => shown (exec (.isok f) cold) (·.flag)) =
      [some true, some false, some false, some false, some false, some false] := by
  decide +kernel

/-- P5, steps 4 and 5: CINIT gives READY, a second one ALREADY_READY; stale slots stay empty. -/
theorem test_cinit :
    shown (exec .cinit shut) (fun r => (r.status, r.state)) = some (0, 1) ∧
      seen (exec .cinit shut) (fun t => (t.slots, t.gcount, t.misses)) =
        some ([stale keyA 1, stale keyB 2, stale keyC 9], 0, 0) ∧
      shown (exec .cinit warm) (fun r => (r.status, r.fault, r.state)) = some (3, 0x04, 1) := by
  decide +kernel

/-- R140: a hit takes the new GCOUNT as its recency and returns the slot's bytes. -/
theorem test_lookup_hit :
    shown (exec (.lookup keyB) warm)
        (fun r => (r.flag, r.slot, payloadByte r.payload 0, payloadByte r.payload 1, payloadByte r.payload 255)) =
      some (true, 1, 0x11, 0x00, 0xEE) ∧
    seen (exec (.lookup keyB) warm) (fun t => (t.gcount, t.hits, t.misses, t.slots)) =
      some (3, 1, 5, [held keyA 1, held keyB 3, stale keyC 9]) := by
  decide +kernel

/-- A miss on a stale key (R131), and V83, V85. -/
theorem test_lookup_miss_and_overflow :
    shown (exec (.lookup keyC) warm) (fun r => (r.status, r.flag)) = some (0, false) ∧
      seen (exec (.lookup keyC) warm) (fun t => (t.gcount, t.hits, t.misses)) = some (2, 0, 6) ∧
      shown (exec (.lookup keyA) spent) (fun r => (r.status, r.fault)) = some (5, 0x10) ∧
      seen (exec (.lookup keyC) spent) (fun t => t.misses) = some 1 := by
  decide +kernel

/-- V57: the first empty slot; program P3, step 5: the least recent. -/
theorem test_insert :
    shown (exec (.insert keyC 0x2211) warm) (·.slot) = some 2 ∧
      seen (exec (.insert keyC 0x2211) warm) (fun t => (t.slots, slotByte t 2 0, slotByte t 2 1, slotByte t 1 255)) =
        some ([held keyA 1, held keyB 2, held keyC 3], 0x11, 0x22, 0xEE) ∧
      seen (exec (.insert keyC 0) full) (fun t => (t.slots, t.gcount)) = some ([held keyA 4, held keyC 5], 5) := by
  decide +kernel

/-- R148: recencies 7, 5, 5 give slot 1; V84. -/
theorem test_insert_tie_and_overflow :
    shown (exec (.insert keyC 0) (readyWith [held keyA 7, held keyB 5, held keyB 5] 7 0 0 [])) (·.slot) = some 1 ∧
      shown (exec (.insert keyC 0) spent) (fun r => (r.status, r.fault)) = some (5, 0x10) := by
  decide +kernel

/-- V61 (on slot 1 of `warm`), V63, V71's last byte. -/
theorem test_patch_writes :
    seen (exec (.patch keyB 2 4 0x04030201) warm)
        (fun t => ((List.range 8).map (slotByte t 1), slotByte t 1 255, t.slots, t.gcount)) =
      some ([0x11, 0, 1, 2, 3, 4, 0, 0], 0xEE, warm.slots, 2) ∧
    seen (exec (.patch keyA 255 1 0xEE) warm) (fun t => (slotByte t 0 254, slotByte t 0 255, slotByte t 1 0)) =
      some (0x00, 0xEE, 0x11) := by
  decide +kernel

/-- V65, V67, V68, V70. -/
theorem test_patch_refusals :
    shown (exec (.patch keyA 255 2 0) warm) (fun r => (r.status, r.fault)) = some (4, 0x08) ∧
      shown (exec (.patch keyA 255 511 0) warm) (fun r => (r.status, r.fault)) = some (4, 0x08) ∧
      shown (exec (.patch keyC 0 4 0) warm) (fun r => (r.status, r.flag)) = some (0, false) ∧
      shown (exec (.patch keyA 255 2 0) cold) (fun r => (r.status, r.fault)) = some (2, 0x02) := by
  decide +kernel

/-- STATS reports both counts and leaves them (R153). -/
theorem test_stats :
    shown (exec .stats warm) (fun r => (r.status, r.hits, r.misses)) = some (0, 0, 5) ∧
      seen (exec .stats warm) (fun t => (t.hits, t.misses)) = some (0, 5) := by
  decide +kernel

/-- V75, V77: CSHUT reports, empties and releases; a second one is refused. -/
theorem test_cshut :
    shown (exec .cshut warm) (fun r => (r.status, r.misses, r.state)) = some (0, 5, 0) ∧
      seen (exec .cshut warm) (fun t => (t.slots.map (·.valid), t.misses)) = some ([false, false, false], 5) ∧
      shown (exec .cshut shut) (fun r => (r.status, r.fault)) = some (2, 0x02) := by
  decide +kernel

/-- V79 to V82. -/
theorem test_reserved_op :
    shown (step (waiting cold [.request Request.zero])) (fun r => (r.status, r.state, r.fault)) = some (1, 0, 0x01) ∧
      shown (step (waiting warm [.request { Request.zero with op := 0xF, len := 511 }]))
        (fun r => (r.status, r.state, r.fault)) = some (1, 1, 0x01) := by
  decide +kernel

/-- R210: reset leaves the reset values, and the request that was outstanding does nothing. -/
theorem test_reset_event :
    step (waiting warm [.reset (some (encodeRequest .stats))]) = .next (State.resetWith 3) :=
  rfl

/-- V32, V33. -/
theorem test_wire :
    frameToWire 0x1104030100100020 = [0x11, 0x04, 0x03, 0x01, 0x00, 0x10, 0x00, 0x20] ∧
      frameToWire 0xA5DEADBEEFCAFE01 = [0xA5, 0xDE, 0xAD, 0xBE, 0xEF, 0xCA, 0xFE, 0x01] := by
  decide +kernel

/-- C2: a probe mask of 0x81 reports devices 0 and 7. -/
theorem test_devices_present : devicesPresent 0x81 = [0, 7] := by decide

/-- I1: no hit ratio at 0/0. -/
theorem test_hit_ratio : hitRatio 0 0 = none ∧ hitRatio 1 1 = some (1, 2) := by decide

/-- A table word placed by `withFetchWord` is what the next step runs: here CINIT, right after reset. -/
theorem test_with_fetch_word :
    seen (step (State.reset.withFetchWord 4 0x4)) (fun t => (t.state, t.port)) = some (.ready, []) := by
  decide +kernel

/-! ## Witnesses: for every obligation with hypotheses, an input that meets them together -/

/-- A property of the slots below `i`, from the check of each. -/
theorem below_of_check {P : Slot → Prop} {slots : List Slot} {i : Nat}
    (h : ∀ j : Fin i, ∀ d ∈ slots[j.val]?, P d) : ∀ (j : Nat) (d : Slot), j < i → slots[j]? = some d → P d :=
  fun j d hj hd => h ⟨j, hj⟩ d hd

/-- A property of all slots by number, from the check of each. -/
theorem every_of_check {P : Nat → Slot → Prop} {slots : List Slot}
    (h : ∀ j : Fin slots.length, ∀ d ∈ slots[j.val]?, P j.val d) : ∀ (j : Nat) (d : Slot), slots[j]? = some d → P j d :=
  fun j d hd => h ⟨j, (List.getElem?_eq_some_iff.mp hd).1⟩ d hd

/-- Pairwise distinct recencies and keys, from the check of each pair. -/
theorem pairs_of_check {P : Nat → Nat → Slot → Slot → Prop} {slots : List Slot}
    (h : ∀ i : Fin slots.length, ∀ c ∈ slots[i.val]?, ∀ j : Fin slots.length, ∀ d ∈ slots[j.val]?, P i.val j.val c d) :
    ∀ (i j : Nat) (c d : Slot), slots[i]? = some c → slots[j]? = some d → P i j c d :=
  fun i j c d hc hd =>
    h ⟨i, (List.getElem?_eq_some_iff.mp hc).1⟩ c hc ⟨j, (List.getElem?_eq_some_iff.mp hd).1⟩ d hd

theorem warm_inv : Inv warm where
  capacity := by decide
  storeWf := by decide
  storeBound := by decide
  faultReserved := by decide
  unallocatedEmpty := by decide
  recencyRange := by decide
  recencyDistinct := pairs_of_check (P := fun i j c d => c.valid = true → d.valid = true → c.recency = d.recency → i = j) (by decide)
  lastTouched := by decide
  hitsBound := by decide
  rspInStep := by intro r h; cases h

theorem full_inv : Inv full where
  capacity := by decide
  storeWf := by decide
  storeBound := by decide
  faultReserved := by decide
  unallocatedEmpty := by decide
  recencyRange := by decide
  recencyDistinct := pairs_of_check (P := fun i j c d => c.valid = true → d.valid = true → c.recency = d.recency → i = j) (by decide)
  lastTouched := by decide
  hitsBound := by decide
  rspInStep := by intro r h; cases h

/-- The invariant does not speak of the port. -/
theorem inv_waiting {s : State} (h : Inv s) (port : List PortEvent) : Inv (waiting s port) :=
  ⟨h.1, h.2, h.3, h.4, h.5, h.6, h.7, h.8, h.9, h.10⟩

/-! ### Reset, the port, dispatch -/

theorem witness_ResetEventRestoresResetValues :
    (waiting warm [.reset (some (encodeRequest .stats)), .request Request.zero]).port =
      .reset (some (encodeRequest .stats)) :: [.request Request.zero] := rfl

theorem witness_EveryStepKeepsInvariant :
    Inv (waiting warm [.request (encodeRequest (.insert keyC 7))]) ∧
      ∃ t, step (waiting warm [.request (encodeRequest (.insert keyC 7))]) = .next t :=
  ⟨inv_waiting warm_inv _, _, rfl⟩

/-- Each clause at a request that meets it; the reserved ops at both ends of their ranges. -/
theorem witness_OpSelectsCommand :
    (encodeRequest (.encode 1 1 0 0 0 0 0)).op = 0x1 ∧ (encodeRequest (.decode 7)).op = 0x2 ∧
      (encodeRequest (.isok 7)).op = 0x3 ∧ (encodeRequest .cinit).op = 0x4 ∧ (encodeRequest (.lookup keyA)).op = 0x5 ∧
      (encodeRequest (.insert keyA 7)).op = 0x6 ∧ (encodeRequest (.patch keyA 250 6 7)).op = 0x7 ∧
      (encodeRequest .stats).op = 0x8 ∧ (encodeRequest .cshut).op = 0x9 ∧
      (Request.zero.op = 0x0 ∨ 0xA ≤ Request.zero.op.toNat) ∧
      ∀ op ∈ [0xA#4, 0xF#4], op = 0x0 ∨ 0xA ≤ op.toNat := by
  decide +kernel

theorem witness_StepRunsDecodedCommand :
    (waiting warm [.request (encodeRequest (.patch keyB 2 4 7)), .reset none]).port =
        .request (encodeRequest (.patch keyB 2 4 7)) :: [.reset none] ∧
      decodeRequest (encodeRequest (.patch keyB 2 4 7)) = .ok (.patch keyB 2 4 7) ∧
      decodeTableWord 4 0x4 = some .cinit :=
  ⟨rfl, rfl, rfl⟩

theorem witness_ReservedOpEndsIllegal :
    (waiting warm [.request { encodeRequest (.insert keyA 7) with op := 0xA }]).port =
        .request { encodeRequest (.insert keyA 7) with op := 0xA } :: [] ∧
      (({ encodeRequest (.insert keyA 7) with op := 0xA } : Request).op = 0x0 ∨
        0xA ≤ ({ encodeRequest (.insert keyA 7) with op := 0xA } : Request).op.toNat) :=
  ⟨rfl, .inr (by decide)⟩

theorem witness_OverlapIsRefused :
    (waiting warm [.overlap (encodeRequest .stats) (encodeRequest .cshut)]).port =
      .overlap (encodeRequest .stats) (encodeRequest .cshut) :: [] := rfl

theorem witness_NoRequestNoAction : warm.port = [] := rfl

/-- A LOOKUP whose ignored fields are not zero. -/
theorem witness_IgnoredFieldsHaveNoEffect :
    decodeRequest { encodeRequest (.lookup keyA) with payload := 7, len := 3, frame := 9 } = .ok (.lookup keyA) := rfl

/-! ### The codec -/

theorem witness_EncodePacksFields : (encodeRequest (.encode 0x1F 0 0x1FF 0 0 0x12345 0)).op = 0x1 := rfl

theorem witness_DecodeUnpacksFields : (encodeRequest (.decode 0xA5DEADBEEFCAFE01)).op = 0x2 := rfl

theorem witness_IsokTestsBothStatusFields : (encodeRequest (.isok 0x1100000000000000)).op = 0x3 := rfl

/-- The first clause at both outcomes, the second through the ENCODE of V8 and the ISOK of V31. -/
theorem witness_IsokOfTopByteAndOfEncodedFrame :
    (∃ t r, exec (.isok 0x11FFFFFFFFFFFFFF) cold = .next t ∧ t.rsp = some r ∧ r.flag = true) ∧
      (∃ t r, exec (.isok 0x3100000000000000) cold = .next t ∧ t.rsp = some r ∧ r.flag = false) ∧
      ∃ t r t' r', exec (.encode 0x11 0x21 0 0 0 0 0) cold = .next t ∧ t.rsp = some r ∧
        exec (.isok r.frame) t = .next t' ∧ t'.rsp = some r' ∧ r'.flag = true :=
  ⟨⟨_, _, rfl, rfl, by decide +kernel⟩, ⟨_, _, rfl, rfl, by decide +kernel⟩, _, _, _, _, rfl, rfl, rfl, rfl, by decide +kernel⟩

/-- Operands within their fields' widths, at the largest. -/
theorem witness_EncodeThenDecodeTruncates :
    (0xF : Word).toNat < 16 ∧ (0xFF : Word).toNat < 256 ∧ (0xFFFF : Word).toNat < 65536 := by
  decide

/-- V5's operands and those operands cut to their fields. -/
theorem witness_UpperOperandBitsReachNothing :
    (0x1F : Word).toNat % 16 = (0xF : Word).toNat % 16 ∧ (0x1FF : Word).toNat % 256 = (0xFF : Word).toNat % 256 ∧
      (0x12345 : Word).toNat % 65536 = (0x2345 : Word).toNat % 65536 := by
  decide

theorem witness_WireIsBigEndian :
    7 < 8 ∧ frameToWire 0xA5DEADBEEFCAFE01 = [0xA5, 0xDE, 0xAD, 0xBE, 0xEF, 0xCA, 0xFE, 0x01] := by
  decide +kernel

/-! ### The cache, command by command -/

theorem witness_StateChecksComeFirst : shut.state = .unallocated ∧ warm.state = .ready := ⟨rfl, rfl⟩

theorem witness_CinitAllocates :
    (encodeRequest .cinit).op = 0x4 ∧ shut.state = .unallocated ∧ shut.slots[2]? = some (stale keyC 9) ∧
      warm.state = .ready := by
  decide +kernel

/-- The hit in slot 1. -/
theorem witness_LookupHit :
    warm.state = .ready ∧ warm.slots[1]? = some (held keyB 2) ∧ (held keyB 2).valid = true ∧ (held keyB 2).key = keyB ∧
      (∀ (j : Nat) (d : Slot), j < 1 → warm.slots[j]? = some d → ¬(d.valid = true ∧ d.key = keyB)) ∧
      warm.gcount ≠ maxCount ∧ warm.hits ≠ maxCount :=
  ⟨rfl, rfl, rfl, rfl, below_of_check (P := fun d => ¬(d.valid = true ∧ d.key = keyB)) (by decide), by decide, by decide⟩

/-- The stale slot 2 holds the very key that is missed. -/
theorem witness_LookupMiss :
    warm.state = .ready ∧ (∀ c ∈ warm.slots, ¬(c.valid = true ∧ c.key = keyC)) ∧ warm.misses ≠ maxCount := by
  decide

theorem witness_InsertFillsFirstEmptySlot :
    warm.state = .ready ∧ warm.gcount ≠ maxCount ∧ warm.slots[2]? = some (stale keyC 9) ∧ (stale keyC 9).valid = false ∧
      (∀ (j : Nat) (d : Slot), j < 2 → warm.slots[j]? = some d → d.valid = true) :=
  ⟨rfl, by decide, rfl, rfl, below_of_check (P := fun d => d.valid = true) (by decide)⟩

theorem witness_InsertEvictsLeastRecent :
    full.state = .ready ∧ full.gcount ≠ maxCount ∧ (∀ d ∈ full.slots, d.valid = true) ∧
      full.slots[1]? = some (held keyB 3) ∧ (∀ d ∈ full.slots, (held keyB 3).recency ≤ d.recency) ∧
      (∀ (j : Nat) (d : Slot), j < 1 → full.slots[j]? = some d → (held keyB 3).recency < d.recency) :=
  ⟨rfl, by decide, by decide, rfl, by decide,
    below_of_check (P := fun d => (held keyB 3).recency < d.recency) (by decide)⟩

/-- A tie, which no run reaches (R148): slots 1 and 2 share the smallest recency, and slot 1 is the first. -/
theorem witness_InsertEvictsLeastRecent_tie :
    let slots := [held keyA 7, held keyB 5, held keyC 5]
    (∀ d ∈ slots, d.valid = true) ∧ slots[1]? = some (held keyB 5) ∧ (∀ d ∈ slots, (held keyB 5).recency ≤ d.recency) ∧
      ∀ (j : Nat) (d : Slot), j < 1 → slots[j]? = some d → (held keyB 5).recency < d.recency :=
  ⟨by decide, rfl, by decide, below_of_check (P := fun d => (held keyB 5).recency < d.recency) (by decide)⟩

theorem witness_InsertCompletesExactlyWithASlot :
    (single.state = .ready ∧ single.gcount ≠ maxCount ∧ single.slots ≠ []) ∧
      (readyWith [] 0 0 0 []).state = .ready ∧ (readyWith [] 0 0 0 []).gcount ≠ maxCount ∧
      (readyWith [] 0 0 0 []).slots = [] := by
  decide

/-- Offset 250 and length 6, the last run that fits (V71); offset 255 and length 1 (V63); the whole block (V64). -/
theorem witness_PatchWritesRun :
    warm.state = .ready ∧ (250#8).toNat + (6#9).toNat ≤ 256 ∧ (255#8).toNat + (1#9).toNat ≤ 256 ∧
      (0#8).toNat + (256#9).toNat ≤ 256 ∧ warm.slots[1]? = some (held keyB 2) ∧ (held keyB 2).valid = true ∧
      (held keyB 2).key = keyB ∧
      (∀ (j : Nat) (d : Slot), j < 1 → warm.slots[j]? = some d → ¬(d.valid = true ∧ d.key = keyB)) :=
  ⟨rfl, by decide, by decide, by decide, rfl, rfl, rfl,
    below_of_check (P := fun d => ¬(d.valid = true ∧ d.key = keyB)) (by decide)⟩

theorem witness_PatchMissChangesNothing :
    warm.state = .ready ∧ (255#8).toNat + (1#9).toNat ≤ 256 ∧ (∀ c ∈ warm.slots, ¬(c.valid = true ∧ c.key = keyC)) := by
  decide

/-- Each clause: the first run that does not fit and the longest; GCOUNT, HITS and MISSES each at the maximum. -/
theorem witness_ValueChecksRefuse :
    (warm.state = .ready ∧ 256 < (255#8).toNat + (2#9).toNat ∧ 256 < (0#8).toNat + (257#9).toNat ∧
      256 < (255#8).toNat + (511#9).toNat) ∧
    (spent.state = .ready ∧ (∃ c ∈ spent.slots, c.valid = true ∧ c.key = keyA) ∧ spent.gcount.toNat = 2 ^ 64 - 1) ∧
    ({ warm with hits := maxCount }.state = .ready ∧ (∃ c ∈ warm.slots, c.valid = true ∧ c.key = keyA) ∧
      { warm with hits := maxCount }.hits.toNat = 2 ^ 64 - 1) ∧
    ({ warm with misses := maxCount }.state = .ready ∧ (∀ c ∈ warm.slots, ¬(c.valid = true ∧ c.key = keyC)) ∧
      { warm with misses := maxCount }.misses.toNat = 2 ^ 64 - 1) := by
  decide

theorem witness_StatsReportsCounters :
    (encodeRequest .stats).op = 0x8 ∧ warm.state = .ready ∧ shut.state = .unallocated := by
  decide +kernel

theorem witness_CshutReportsAndReleases :
    (encodeRequest .cshut).op = 0x9 ∧ warm.state = .ready ∧ warm.slots[0]? = some (held keyA 1) ∧
      shut.state = .unallocated := by
  decide +kernel

/-! ### Rules over all commands -/

/-- A request that ends with an error: PATCH past the end of the block, while FAULT has another bit set. -/
theorem witness_ErrorsArePrecise :
    ∃ t r, performRequest (encodeRequest (.patch keyB 255 2 7)) { warm with fault := 1 } = .next t ∧ t.rsp = some r ∧
      r.status ≠ 0 :=
  ⟨_, _, rfl, rfl, by decide +kernel⟩

/-- Two errors at once, NOT_READY and RANGE (V70). -/
theorem witness_StatusFollowsPriority :
    ∃ t r, performRequest (encodeRequest (.patch keyB 255 2 7)) cold = .next t ∧ t.rsp = some r ∧ r.status = 2 :=
  ⟨_, _, rfl, rfl, by decide +kernel⟩

theorem witness_ResponseShowsStateAndFault :
    ∃ t, performRequest (encodeRequest .cshut) { warm with fault := 1 } = .next t := ⟨_, rfl⟩

/-- One request that ends with an error, one that ends OK with a bit already set. -/
theorem witness_FaultIsSticky :
    (∃ t r, performRequest (encodeRequest .cinit) { warm with fault := 1 } = .next t ∧ t.rsp = some r ∧ r.status = 3 ∧
      (1#8).getLsbD 0 = true) ∧
    ∃ t r, performRequest (encodeRequest .cshut) { warm with fault := 1 } = .next t ∧ t.rsp = some r ∧ r.status = 0 :=
  ⟨⟨_, _, rfl, rfl, by decide +kernel, by decide⟩, _, _, rfl, rfl, by decide +kernel⟩

theorem witness_OnlyCinitAndCshutMoveState :
    (∃ t, exec .cinit shut = .next t ∧ t.state ≠ shut.state) ∧ ∃ t, exec .cshut warm = .next t ∧ t.state ≠ warm.state :=
  ⟨⟨_, rfl, by decide⟩, _, rfl, by decide⟩

theorem witness_GcountCountsTouches :
    (∃ t, exec (.lookup keyB) warm = .next t ∧ t.gcount = 3) ∧ (∃ t, exec (.insert keyC 7) warm = .next t ∧ t.gcount = 3) ∧
      ∃ t, exec .cinit shut = .next t ∧ t.gcount = 0 :=
  ⟨⟨_, rfl, by decide +kernel⟩, ⟨_, rfl, by decide +kernel⟩, _, rfl, by decide +kernel⟩

theorem witness_OnlyLookupAndCinitChangeCounts :
    (∃ t, exec (.lookup keyB) warm = .next t ∧ t.hits = 1) ∧ (∃ t, exec (.lookup keyC) warm = .next t ∧ t.misses = 6) ∧
      ∃ t, exec .cinit shut = .next t ∧ t.misses = 0 :=
  ⟨⟨_, rfl, by decide +kernel⟩, ⟨_, rfl, by decide +kernel⟩, _, rfl, by decide +kernel⟩

theorem witness_CapacityIsFixed :
    ∃ t, step (waiting warm [.request (encodeRequest (.insert keyC 7))]) = .next t := ⟨_, rfl⟩

theorem witness_EveryRequestIsAnswered :
    Inv (waiting full [.request (encodeRequest (.insert keyC 7))]) ∧
      (waiting full [.request (encodeRequest (.insert keyC 7))]).port = .request (encodeRequest (.insert keyC 7)) :: [] :=
  ⟨inv_waiting full_inv _, rfl⟩

/-- The first clause at the widest index of three slots; the third at two slots; the last on a hit and on an error, whose slot is a draw. -/
theorem witness_SlotIndexFitsItsWidth :
    2 < 3 ∧ 2 ≤ 2 ∧ (∃ t r, performRequest (encodeRequest (.lookup keyB)) warm = .next t ∧ t.rsp = some r ∧ r.slot = 1) ∧
      ∃ t r, performRequest Request.zero warm = .next t ∧ t.rsp = some r :=
  ⟨by decide, by decide, ⟨_, _, rfl, rfl, by decide +kernel⟩, _, _, rfl, rfl⟩

theorem witness_ErrorResponseFieldsAreDraws :
    ∃ t r, performRequest (encodeRequest .cinit) warm = .next t ∧ t.rsp = some r ∧ r.status ≠ 0 :=
  ⟨_, _, rfl, rfl, by decide +kernel⟩

/-! ### Across commands -/

/-- `warm` with other contents in its empty slot 2: another key, another recency, another byte 0. -/
def warmer : State :=
  readyWith [held keyA 1, held keyB 2, stale keyA 77] 2 0 5 [(256, 0x11#8), (511, 0xEE#8), (512, 0x99#8)]

theorem warm_agrees : AgreeOnValid (waiting warm [.request (encodeRequest (.insert keyC 7))])
    (waiting warmer [.request (encodeRequest (.insert keyC 7))]) where
  registers := ⟨rfl, rfl, rfl, rfl, rfl⟩
  rsp := rfl
  port := rfl
  draws := rfl
  length := rfl
  valid := by
    intro i c d hc hd
    match i, hc, hd with
    | 0, hc, hd => cases hc; cases hd; rfl
    | 1, hc, hd => cases hc; cases hd; rfl
    | 2, hc, hd => cases hc; cases hd; rfl
    | _ + 3, hc, _ => cases hc
  held := by
    intro i c d hc hd hv
    match i, hc, hd, hv with
    | 0, hc, hd, _ => cases hc; cases hd; exact ⟨rfl, rfl, by decide +kernel⟩
    | 1, hc, hd, _ => cases hc; cases hd; exact ⟨rfl, rfl, by decide +kernel⟩
    | 2, hc, _, hv => cases hc; cases hv
    | _ + 3, hc, _, _ => cases hc

theorem witness_InvalidSlotContentsAreUnread :
    AgreeOnValid (waiting warm [.request (encodeRequest (.insert keyC 7))])
        (waiting warmer [.request (encodeRequest (.insert keyC 7))]) ∧
      ∃ t, step (waiting warm [.request (encodeRequest (.insert keyC 7))]) = .next t :=
  ⟨warm_agrees, _, rfl⟩

/-- An INSERT of a key that is not resident, into a state whose valid slots hold distinct keys. -/
theorem witness_KeysStayUnique :
    UniqueKeys (waiting warm [.request (encodeRequest (.insert keyC 7))]) ∧
      PortRespectsResidency (waiting warm [.request (encodeRequest (.insert keyC 7))]) ∧
      ∃ t, step (waiting warm [.request (encodeRequest (.insert keyC 7))]) = .next t := by
  refine ⟨pairs_of_check (P := fun i j c d => c.valid = true → d.valid = true → c.key = d.key → i = j) (by decide), ?_,
    _, rfl⟩
  intro q rest i hp hd k p hi
  cases hp
  cases hd
  cases hi
  decide

/-- V58 (an empty slot), V59 (the key's own slot is least recent) and V60 (another slot is). -/
theorem witness_InsertOfResidentKey :
    (firstMatch keyA warm.slots = some 0 ∧
      ∃ t r, exec (.insert keyA 7) warm = .next t ∧ t.rsp = some r ∧ r.status = 0 ∧ r.slot = 2) ∧
    (firstMatch keyB full.slots = some 1 ∧
      ∃ t r, exec (.insert keyB 7) full = .next t ∧ t.rsp = some r ∧ r.status = 0 ∧ r.slot = 1) ∧
    firstMatch keyA full.slots = some 0 ∧
      ∃ t r, exec (.insert keyA 7) full = .next t ∧ t.rsp = some r ∧ r.status = 0 ∧ r.slot = 1 :=
  ⟨⟨by decide, _, _, rfl, rfl, rfl, by decide +kernel⟩, ⟨by decide, _, _, rfl, rfl, rfl, by decide +kernel⟩, by decide,
    _, _, rfl, rfl, rfl, by decide +kernel⟩

theorem witness_InsertThenLookup :
    warm.state = .ready ∧ (∃ c ∈ warm.slots, c.valid = false) ∧ firstMatch keyC warm.slots = none ∧
      firstMatch ⟨1, 2, 3⟩ warm.slots = none ∧ (⟨1, 2, 3⟩ : Key) ≠ keyC ∧ warm.gcount.toNat + 1 < 2 ^ 64 - 1 ∧
      warm.hits ≠ maxCount ∧ warm.misses ≠ maxCount := by
  decide

theorem witness_PatchThenLookup :
    ∃ t u w r ru rw, exec (.patch keyB 2 4 0x04030201) warm = .next t ∧ t.rsp = some r ∧ r.status = 0 ∧ r.flag = true ∧
      exec (.lookup keyB) t = .next u ∧ u.rsp = some ru ∧ ru.status = 0 ∧
      exec (.lookup keyB) warm = .next w ∧ w.rsp = some rw :=
  ⟨_, _, _, _, _, _, rfl, rfl, rfl, rfl, rfl, rfl, rfl, rfl, rfl⟩

theorem witness_ColdCacheMisses :
    (shut.state = .unallocated ∧ ∃ t, exec .cinit shut = .next t) ∧
    ((∀ c ∈ empty2.slots, c.valid = false) ∧ (∀ k p, Instr.lookup keyA ≠ .insert k p) ∧
      ∃ t, exec (.lookup keyA) empty2 = .next t) ∧
    empty2.state = .ready ∧ empty2.misses ≠ maxCount ∧ (0#8).toNat + (256#9).toNat ≤ 256 :=
  ⟨⟨rfl, _, rfl⟩, ⟨by decide, (fun _ _ h => nomatch h), _, rfl⟩, rfl, by decide, by decide⟩

/-- Two slots, and the one-slot cache of C4, which the last clause leaves out. -/
theorem witness_MostRecentIsNeverEvicted :
    Inv full ∧ (∀ c ∈ full.slots, c.valid = true) ∧ 2 ≤ full.slots.length ∧
      ∃ t r, exec (.insert keyC 7) full = .next t ∧ t.rsp = some r ∧ r.status = 0 ∧ r.slot = 1 :=
  ⟨full_inv, by decide, by decide, _, _, rfl, rfl, rfl, by decide +kernel⟩

/-- Three INSERTs into two slots. -/
theorem witness_FillsInOrderThenEvictsFirst :
    let ins : List (Key × Payload) := [(keyA, 1), (keyB, 2), (keyC, 3)]
    let s := waiting empty2 (ins.map (fun kp => .request (encodeRequest (.insert kp.1 kp.2))))
    s.state = .ready ∧ s.gcount = 0 ∧ s.slots ≠ [] ∧ s.slots.length < 2 ^ 64 - 1 ∧ (∀ c ∈ s.slots, c.valid = false) ∧
      ins.length = s.slots.length + 1 ∧ (ins.map Prod.fst).Nodup ∧
      s.port = ins.map (fun kp => .request (encodeRequest (.insert kp.1 kp.2))) :=
  ⟨rfl, rfl, by decide, by decide, by decide, rfl, by decide, rfl⟩

/-- A run of one LOOKUP that misses. -/
theorem witness_ZeroFaultRunHadNoError :
    (∀ o, PortEvent.reset o ∉ (waiting empty2 [.request (encodeRequest (.lookup keyA))]).port) ∧
      (∀ r, (waiting empty2 [.request (encodeRequest (.lookup keyA))]).rsp = some r → r.status = 0) ∧
      ∃ t : State, Host.Core.run Sys2Proof.core 1 (waiting empty2 [.request (encodeRequest (.lookup keyA))]) = .next t ∧
        EndsWithoutError (.next t) ∧ 1 ≤ 1 := by
  refine ⟨fun o h => ?_, (fun _ h => nomatch h), _, rfl, rfl, Nat.le_refl _⟩
  cases h with
  | tail _ h => cases h

/-- A hit and a miss. -/
theorem witness_ReadAndWritePathsRespectResidency :
    (∃ t r, exec (.lookup keyB) warm = .next t ∧ t.rsp = some r ∧ r.status = 0 ∧ r.flag = true) ∧
      ∃ t r, exec (.lookup keyC) warm = .next t ∧ t.rsp = some r ∧ r.status = 0 ∧ r.flag = false :=
  ⟨⟨_, _, rfl, rfl, rfl, rfl⟩, _, _, rfl, rfl, rfl, rfl⟩

theorem witness_WritePathBlockEqualsSlot :
    ∃ t u r ru, exec (.lookup keyB) warm = .next t ∧ t.rsp = some r ∧ r.status = 0 ∧ r.flag = true ∧
      exec (.patch keyB 2 4 0x04030201) t = .next u ∧ u.rsp = some ru ∧ ru.status = 0 :=
  ⟨_, _, _, _, rfl, rfl, rfl, rfl, rfl, rfl, rfl⟩

end Sys2Proof.Tests
end

section
/-! SUPPORT. FAULT after a request (R26, R184): what a request that gives a next state has left, and the bits its error
sets. -/

namespace Sys2Proof.Machine

/-- No error's code is that of OK (R181). -/
@[simp] theorem ErrorCode.status_ne_zero (e : ErrorCode) : e.status ≠ 0 := by
  cases e <;> decide

/-- The error codes are 1 to 5, so no error's FAULT bit is among bits 7:5 (R26, R181). -/
@[simp] theorem ErrorCode.faultBit_reserved (e : ErrorCode) : e.faultBit.extractLsb' 5 3 = 0 := by
  cases e <;> decide

/-- `performRequest_answers` read from the next state: it is the error response over a FAULT that took the error's bit,
or the OK response over a state with the same FAULT, port, draws and number of slots. -/
theorem performRequest_next_cases {r : Request} {s t : State} (h : performRequest r s = .next t) :
    (∃ e : ErrorCode, t = respond { s with fault := s.fault ||| e.faultBit } e.status {}) ∨
    (∃ s' d, t = respond s' statusOk d ∧ s'.fault = s.fault ∧ s'.port = s.port ∧ s'.draws = s.draws ∧
      s'.slots.length = s.slots.length ∧ ∀ n, d.slot = some n → n < s.slots.length) := by
  rcases performRequest_answers r s with ⟨e, he⟩ | ⟨s', d, hd, hframe⟩ | ⟨-, hstop⟩
  · rw [he] at h
    cases h
    exact .inl ⟨e, rfl⟩
  · rw [hd] at h
    cases h
    exact .inr ⟨s', d, rfl, hframe⟩
  · rw [hstop] at h
    cases h

end Sys2Proof.Machine
end

section
open Sys2Proof Sys2Proof.Machine

/-- Settles O37: a request ends with an error, which only sets that error's bit, one of bits 4:0, or with OK, which
leaves FAULT alone. -/
theorem faultIsSticky : Obligations.FaultIsSticky := by
  unfold Obligations.FaultIsSticky
  intro q s t h
  rcases performRequest_next_cases h with ⟨e, rfl⟩ | ⟨s', d, rfl, hfault, -⟩
  case inl =>
    refine ⟨⟨_, rfl, fun hok => absurd hok e.status_ne_zero, fun _ => rfl⟩, fun n hn => ?_, ?_⟩
    · simp [hn]
    · simp [BitVec.extractLsb'_or]
  case inr =>
    refine ⟨⟨_, rfl, fun _ => hfault, fun herr => absurd rfl herr⟩, fun n hn => ?_, ?_⟩
    · simpa [hfault] using hn
    · simp [hfault]

end

section
/-! SUPPORT. Reserved ops (R74, R75): a request is malformed exactly when its op is reserved, and what the decoder, a
request and a step then do; and what every raised error leaves (R184). -/

namespace Sys2Proof.Machine

/-- The form check fails at exactly the ops that R75 reserves. -/
theorem wellFormed_eq_false_iff (r : Request) : r.wellFormed = false ↔ r.op = 0x0 ∨ 0xA ≤ r.op.toNat := by
  have hzero : r.op = 0x0 ↔ r.op.toNat = 0 := BitVec.toNat_inj.symm
  simp only [Request.wellFormed, opAssigned, Bool.and_eq_false_iff, decide_eq_false_iff_not, hzero]
  omega

theorem decodeRequest_of_reservedOp {r : Request} (h : r.op = 0x0 ∨ 0xA ≤ r.op.toNat) :
    decodeRequest r = .error (.reservedOp r.op) := by
  rcases decodeRequest_cases r with ⟨hw, -⟩ | ⟨-, hd⟩
  · simp [(wellFormed_eq_false_iff r).mpr h] at hw
  · exact hd

theorem performRequest_of_reservedOp {r : Request} (h : r.op = 0x0 ∨ 0xA ≤ r.op.toNat) (s : State) :
    performRequest r s = raiseError .illegalOp s := by
  simp only [performRequest, decodeRequest_of_reservedOp h]

/-- A step whose earliest event is a request performs it, that event being off the port (R62). -/
theorem step_of_request {s : State} {r : Request} {rest : List PortEvent} (h : s.port = .request r :: rest) :
    step s = performRequest r { s with port := rest } := by
  simp only [step, runPort, h, performEvent]

/-- `raiseError` does what R184 says of every error: its own FAULT bit, its code on the response, and all else as
before. -/
theorem raiseError_endedWithError (e : ErrorCode) (s : State) :
    ∃ t, raiseError e s = .next t ∧ EndedWithError e.status s t :=
  ⟨_, rfl,
    { fault := rfl, state := rfl, gcount := rfl, hits := rfl, misses := rfl, slots := rfl, bytes := fun _ => rfl,
      port := rfl, rsp := ⟨_, rfl, rfl, rfl, rfl⟩ }⟩

end Sys2Proof.Machine
end

section
open Sys2Proof Sys2Proof.Machine

/-- Settles O7: at an assigned op the decoder's own branch for that op, at any other its last branch. -/
theorem opSelectsCommand : Obligations.OpSelectsCommand := by
  unfold Obligations.OpSelectsCommand
  intro q
  refine ⟨fun h => ?_, fun h => ?_, fun h => ?_, fun h => ?_, fun h => ?_, fun h => ?_, fun h => ?_, fun h => ?_,
    fun h => ?_, decodeRequest_of_reservedOp⟩
  all_goals
    unfold decodeRequest
    rw [h]
    rfl

/-- Settles O9: the step performs the request, which raises ILLEGAL_OP whatever STATE and the operands are. -/
theorem reservedOpEndsIllegal : Obligations.ReservedOpEndsIllegal := by
  unfold Obligations.ReservedOpEndsIllegal
  intro s q rest hport hop
  rw [step_of_request hport, performRequest_of_reservedOp hop]
  exact raiseError_endedWithError .illegalOp _

end

section
/-! SUPPORT. The Register Codec (41_codec.md): the frame by R100's formula, a frame's fields as numbers (R105), the
success predicate on numbers (R110), and what a command that only responds leaves as it was. -/

namespace Sys2Proof.Machine

/-- A value cut to `k` bits and widened again is the value under the mask of its low `k` bits (R81). -/
theorem setWidth_setWidth_eq_and_mask {w : Nat} (x : BitVec w) (k : Nat) :
    (x.setWidth k).setWidth w = x &&& BitVec.ofNat w (2 ^ k - 1) := by
  apply BitVec.eq_of_getLsbD_eq
  intro j hj
  simp only [BitVec.getLsbD_setWidth, BitVec.getLsbD_and, BitVec.getLsbD_ofNat, Nat.testBit_two_pow_sub_one, hj,
    decide_true, Bool.true_and, Bool.and_comm]

/-- The concatenation of the truncated operands is R100's formula: each appended field shifts those above it left by its
width, and a truncation is a mask. -/
theorem packFields_truncOperands (b0 b1 c0 c1 c2 d0 d1 : Word) :
    packFields (truncOperands b0 b1 c0 c1 c2 d0 d1) =
      (b0 &&& 0xF) <<< 60 ||| (b1 &&& 0xF) <<< 56 ||| (c0 &&& 0xFF) <<< 48 ||| (c1 &&& 0xFF) <<< 40 |||
        (c2 &&& 0xFF) <<< 32 ||| (d0 &&& 0xFFFF) <<< 16 ||| (d1 &&& 0xFFFF) := by
  rw [← BitVec.setWidth_eq (packFields _)]
  simp only [packFields, truncOperands, BitVec.setWidth_append_eq_shiftLeft_setWidth_or, setWidth_setWidth_eq_and_mask,
    BitVec.shiftLeft_or_distrib, ← BitVec.shiftLeft_add]
  rfl

/-- A field of a word as a number: the bits below it divided off, those above it cut. -/
theorem toNat_extractLsb'_eq_div_mod {w : Nat} (x : BitVec w) (start k : Nat) :
    (x.extractLsb' start k).toNat = x.toNat / 2 ^ start % 2 ^ k := by
  rw [BitVec.extractLsb'_toNat, Nat.shiftRight_eq_div_pow]

/-- The top field needs no cut: a frame has 64 bits. -/
theorem toNat_unpackFields_b0 (f : Word) : (unpackFields f).b0.toNat = f.toNat / 2 ^ 60 :=
  (toNat_extractLsb'_eq_div_mod f 60 4).trans (Nat.mod_eq_of_lt (by have := f.isLt; omega))

theorem toNat_unpackFields_b1 (f : Word) : (unpackFields f).b1.toNat = f.toNat / 2 ^ 56 % 2 ^ 4 :=
  toNat_extractLsb'_eq_div_mod f 56 4

theorem toNat_unpackFields_c0 (f : Word) : (unpackFields f).c0.toNat = f.toNat / 2 ^ 48 % 2 ^ 8 :=
  toNat_extractLsb'_eq_div_mod f 48 8

theorem toNat_unpackFields_c1 (f : Word) : (unpackFields f).c1.toNat = f.toNat / 2 ^ 40 % 2 ^ 8 :=
  toNat_extractLsb'_eq_div_mod f 40 8

theorem toNat_unpackFields_c2 (f : Word) : (unpackFields f).c2.toNat = f.toNat / 2 ^ 32 % 2 ^ 8 :=
  toNat_extractLsb'_eq_div_mod f 32 8

theorem toNat_unpackFields_d0 (f : Word) : (unpackFields f).d0.toNat = f.toNat / 2 ^ 16 % 2 ^ 16 :=
  toNat_extractLsb'_eq_div_mod f 16 16

/-- The lowest field needs no division. -/
theorem toNat_unpackFields_d1 (f : Word) : (unpackFields f).d1.toNat = f.toNat % 2 ^ 16 := by
  rw [← Nat.div_one f.toNat]
  exact toNat_extractLsb'_eq_div_mod f 0 16

theorem frameSucceeds_iff (f : Word) :
    frameSucceeds f = true ↔ f.toNat / 2 ^ 60 = 1 ∧ f.toNat / 2 ^ 56 % 2 ^ 4 = 1 := by
  rw [← toNat_unpackFields_b0, ← toNat_unpackFields_b1]
  simp only [frameSucceeds, Bool.and_eq_true, beq_iff_eq, ← BitVec.toNat_inj]
  rfl

/-- Driving a response changes nothing else (R70, R182). -/
theorem respond_onlyResponds (s : State) (status : BitVec 4) (d : Driven) : OnlyResponds s (respond s status d) :=
  ⟨⟨rfl, rfl, rfl, rfl, rfl⟩, rfl, fun _ => rfl, rfl⟩

end Sys2Proof.Machine
end

section
open Sys2Proof Sys2Proof.Machine

/-- Settles O13: ENCODE only responds, with the packed operands as its frame and `rsp.flag` left to the draw. -/
theorem encodePacksFields : Obligations.EncodePacksFields := by
  unfold Obligations.EncodePacksFields
  refine ⟨fun q => ?_, fun b0 b1 c0 c1 c2 d0 d1 s => ?_⟩
  · obtain ⟨hencode, -⟩ := opSelectsCommand q
    exact hencode
  · exact ⟨_, _, rfl, rfl, rfl, packFields_truncOperands b0 b1 c0 c1 c2 d0 d1, rfl, respond_onlyResponds s _ _⟩

/-- Settles O14: DECODE only responds, with the unpacked fields and `rsp.flag` left to the draw. -/
theorem decodeUnpacksFields : Obligations.DecodeUnpacksFields := by
  unfold Obligations.DecodeUnpacksFields
  refine ⟨fun q => ?_, fun f s => ?_⟩
  · obtain ⟨-, hdecode, -⟩ := opSelectsCommand q
    exact hdecode
  · exact ⟨_, _, rfl, rfl, rfl, toNat_unpackFields_b0 f, toNat_unpackFields_b1 f, toNat_unpackFields_c0 f,
      toNat_unpackFields_c1 f, toNat_unpackFields_c2 f, toNat_unpackFields_d0 f, toNat_unpackFields_d1 f, rfl,
      respond_onlyResponds s _ _⟩

/-- Settles O15: ISOK only responds, with the success predicate of the frame as its flag. -/
theorem isokTestsBothStatusFields : Obligations.IsokTestsBothStatusFields := by
  unfold Obligations.IsokTestsBothStatusFields
  refine ⟨fun q => ?_, fun f s => ?_⟩
  · obtain ⟨-, -, hisok, -⟩ := opSelectsCommand q
    exact hisok
  · exact ⟨_, _, rfl, rfl, rfl, frameSucceeds_iff f, respond_onlyResponds s _ _⟩

end

section
/-! SUPPORT. The commands that read no key (R130, R135, R153, R156): the STATE check of every cache command, and what
CINIT, STATS and CSHUT give where they perform. -/

namespace Sys2Proof.Machine

variable {s : State}

/-- Every cache command but CINIT is its body under the STATE check, so none of its operands is looked at (R130). -/
theorem exec_of_unallocated (h : s.state = .unallocated) {i : Instr}
    (hi : (∃ k, i = .lookup k) ∨ (∃ k p, i = .insert k p) ∨ (∃ k offset len p, i = .patch k offset len p) ∨ i = .stats ∨
      i = .cshut) :
    exec i s = raiseError .notReady s := by
  rcases hi with ⟨k, rfl⟩ | ⟨k, p, rfl⟩ | ⟨k, offset, len, p, rfl⟩ | rfl | rfl
  all_goals exact whenReady_of_unallocated h _

theorem exec_cinit_of_ready (h : s.state = .ready) : exec .cinit s = raiseError .alreadyReady s := by
  rcases execCinit_cases s with ⟨-, herr⟩ | ⟨hun, -⟩
  · exact herr
  · simp [h] at hun

theorem exec_cinit_of_unallocated (h : s.state = .unallocated) :
    exec .cinit s =
      finish { s with slots := invalidateAll s.slots, gcount := 0, hits := 0, misses := 0, state := .ready } {} := by
  rcases execCinit_cases s with ⟨hready, -⟩ | ⟨-, hdone⟩
  · simp [h] at hready
  · exact hdone

theorem exec_stats_of_ready (h : s.state = .ready) :
    exec .stats s = finish s { hits := some s.hits, misses := some s.misses } :=
  whenReady_of_ready h _

theorem exec_cshut_of_ready (h : s.state = .ready) :
    exec .cshut s =
      finish { s with slots := invalidateAll s.slots, state := .unallocated }
        { hits := some s.hits, misses := some s.misses } :=
  whenReady_of_ready h _

/-- Emptying every slot leaves each slot's key and recency (R135, R156). -/
theorem getElem?_invalidateAll {slots : List Slot} {i : Nat} {c : Slot} (h : slots[i]? = some c) :
    (invalidateAll slots)[i]? = some { c with valid := false } := by
  simp [invalidateAll, h]

end Sys2Proof.Machine
end

section
open Sys2Proof Sys2Proof.Machine

/-- Settles O22: the refused commands raise their error before anything else, and an error only sets its FAULT bit. -/
theorem stateChecksComeFirst : Obligations.StateChecksComeFirst := by
  unfold Obligations.StateChecksComeFirst
  refine ⟨fun s i hun hi => ?_, fun s hready => ?_⟩
  · rw [exec_of_unallocated hun hi]
    exact raiseError_endedWithError .notReady s
  · rw [exec_cinit_of_ready hready]
    exact raiseError_endedWithError .alreadyReady s

/-- Settles O32: STATS only responds, with the counters and `rsp.flag` left to the draw. -/
theorem statsReportsCounters : Obligations.StatsReportsCounters := by
  unfold Obligations.StatsReportsCounters
  obtain ⟨hnotReady, -⟩ := stateChecksComeFirst
  refine ⟨fun q => ?_, fun s hready => ?_, fun s hun => hnotReady s .stats hun (by simp)⟩
  · obtain ⟨-, -, -, -, -, -, -, hstats, -⟩ := opSelectsCommand q
    exact hstats
  · exact ⟨_, _, exec_stats_of_ready hready, rfl, rfl, rfl, rfl, rfl, respond_onlyResponds s _ _⟩

/-- Settles O23: CINIT empties the slots by `invalidateAll`, which keeps their number and other fields, and writes no
byte. -/
theorem cinitAllocates : Obligations.CinitAllocates := by
  unfold Obligations.CinitAllocates
  obtain ⟨-, halreadyReady⟩ := stateChecksComeFirst
  refine ⟨fun q => ?_, fun s hun => ?_, halreadyReady⟩
  · obtain ⟨-, -, -, hcinit, -⟩ := opSelectsCommand q
    exact hcinit
  · exact ⟨_, _, exec_cinit_of_unallocated hun, rfl, rfl, rfl, rfl, rfl, rfl, rfl, rfl, rfl, rfl,
      length_invalidateAll s.slots, fun _ _ => getElem?_invalidateAll, fun _ => rfl, rfl⟩

/-- Settles O33: CSHUT reports the counters, which it keeps, empties the slots by `invalidateAll`, and writes no byte. -/
theorem cshutReportsAndReleases : Obligations.CshutReportsAndReleases := by
  unfold Obligations.CshutReportsAndReleases
  obtain ⟨hnotReady, -⟩ := stateChecksComeFirst
  refine ⟨fun q => ?_, fun s hready => ?_, fun s hun => hnotReady s .cshut hun (by simp)⟩
  · obtain ⟨-, -, -, -, -, -, -, -, hcshut, -⟩ := opSelectsCommand q
    exact hcshut
  · exact ⟨_, _, exec_cshut_of_ready hready, rfl, rfl, rfl, rfl, rfl, rfl, rfl, rfl, rfl, rfl, rfl,
      length_invalidateAll s.slots, fun _ _ => getElem?_invalidateAll, fun _ => rfl, rfl⟩

end

section
/-! SUPPORT. The two value checks (R183): counters at 2^64-1, residency of a key, and the commands that RANGE and
OVERFLOW refuse. -/

namespace Sys2Proof.Machine

/-- A counter is at 2^64-1 exactly when it is the maximum that the commands compare with. -/
theorem toNat_eq_max_iff (x : Word) : x.toNat = 2 ^ 64 - 1 ↔ x = maxCount :=
  BitVec.toNat_inj (y := maxCount)

/-- The key match misses exactly when no valid slot holds the key (R131). -/
theorem firstMatch_eq_none_iff_not_resident (k : Key) (slots : List Slot) :
    firstMatch k slots = none ↔ ∀ c ∈ slots, ¬(c.valid = true ∧ c.key = k) := by
  simp only [firstMatch_eq_none_iff, ← Slot.holds_iff, Bool.not_eq_true]

/-- The key match hits exactly when a valid slot holds the key (R131). -/
theorem exists_firstMatch_iff_resident (k : Key) (slots : List Slot) :
    (∃ i, firstMatch k slots = some i) ↔ ∃ c ∈ slots, c.valid = true ∧ c.key = k := by
  rw [← Option.ne_none_iff_exists', Ne, firstMatch_eq_none_iff_not_resident]
  simp

variable {s : State}

/-- The range is checked before the key, so residency plays no part (R150). -/
theorem exec_patch_of_runCrossesEnd (h : s.state = .ready) {offset : BitVec 8} {len : BitVec 9}
    (hrun : 256 < offset.toNat + len.toNat) (k : Key) (p : Payload) :
    exec (.patch k offset len p) s = raiseError .range s := by
  rcases execPatch_cases k offset len p s with ⟨hun, -⟩ | ⟨-, -, he⟩ | ⟨-, hfits, -⟩ | ⟨-, -, hfits, -⟩
  · simp [h] at hun
  · exact he
  all_goals omega

theorem exec_lookup_of_hit_of_max (h : s.state = .ready) {k : Key} {i : Nat} (hit : firstMatch k s.slots = some i)
    (hmax : s.gcount = maxCount ∨ s.hits = maxCount) : exec (.lookup k) s = raiseError .overflow s := by
  rcases execLookup_cases k s with
    ⟨hun, -⟩ | ⟨-, -, -, he⟩ | ⟨-, hmiss, -⟩ | ⟨-, -, -, -, he⟩ | ⟨-, -, -, hgcount, hhits, -⟩
  · simp [h] at hun
  · exact he
  · simp [hit] at hmiss
  · exact he
  · simp [hgcount, hhits] at hmax

theorem exec_lookup_of_miss_of_max (h : s.state = .ready) {k : Key} (hmiss : firstMatch k s.slots = none)
    (hmax : s.misses = maxCount) : exec (.lookup k) s = raiseError .overflow s := by
  rcases execLookup_cases k s with
    ⟨hun, -⟩ | ⟨-, -, -, he⟩ | ⟨-, -, hmisses, -⟩ | ⟨-, -, -, -, he⟩ | ⟨i, -, hit, -⟩
  · simp [h] at hun
  · exact he
  · exact absurd hmax hmisses
  · exact he
  · simp [hmiss] at hit

theorem exec_insert_of_max (h : s.state = .ready) (hmax : s.gcount = maxCount) (k : Key) (p : Payload) :
    exec (.insert k p) s = raiseError .overflow s := by
  rcases execInsert_cases k p s with ⟨hun, -⟩ | ⟨-, -, he⟩ | ⟨-, hgcount, -⟩ | ⟨-, -, hgcount, -⟩
  · simp [h] at hun
  · exact he
  all_goals exact absurd hmax hgcount

end Sys2Proof.Machine
end

section
open Sys2Proof Sys2Proof.Machine

/-- Settles O31: each of the refused commands raises its error before it writes anything, and an error only sets its
FAULT bit. -/
theorem valueChecksRefuse : Obligations.ValueChecksRefuse := by
  unfold Obligations.ValueChecksRefuse
  intro s k p hready
  simp only [toNat_eq_max_iff, ← exists_firstMatch_iff_resident, ← firstMatch_eq_none_iff_not_resident]
  refine ⟨fun offset len hrun => ?_, fun ⟨i, hit⟩ hmax => ?_, fun hmiss hmax => ?_, fun hmax => ?_⟩
  · rw [exec_patch_of_runCrossesEnd hready hrun]
    exact raiseError_endedWithError .range s
  · rw [exec_lookup_of_hit_of_max hready hit hmax]
    exact raiseError_endedWithError .overflow s
  · rw [exec_lookup_of_miss_of_max hready hmiss hmax]
    exact raiseError_endedWithError .overflow s
  · rw [exec_insert_of_max hready hmax]
    exact raiseError_endedWithError .overflow s

end

section
/-! SUPPORT. The status of a response (R182, R185): what an error and an OK response carry, R185's chain cut down to the
checks that each command has, and that a request's chain is that of its command. -/

namespace Sys2Proof.Machine

variable {s t : State} {r : Response}

theorem status_of_raiseError {e : ErrorCode} (h : raiseError e s = .next t) (hr : t.rsp = some r) :
    r.status = e.status := by
  cases h
  cases hr
  rfl

theorem status_of_finish {s' : State} {d : Driven} (h : finish s' d = .next t) (hr : t.rsp = some r) :
    r.status = 0 := by
  cases h
  cases hr
  rfl

/-- ILLEGAL_OP outranks every other error (R185). -/
theorem expectedStatus_of_reservedOp {q : Request} (h : q.op = 0x0 ∨ 0xA ≤ q.op.toNat) (s : State) :
    expectedStatus q s = ErrorCode.illegalOp.status :=
  if_pos h

theorem expectedStatus_encode (b0 b1 c0 c1 c2 d0 d1 : Word) (s : State) :
    expectedStatus (encodeRequest (.encode b0 b1 c0 c1 c2 d0 d1)) s = 0 := by
  simp [expectedStatus, encodeRequest, opcodeOf]

theorem expectedStatus_decode (f : Word) (s : State) : expectedStatus (encodeRequest (.decode f)) s = 0 := by
  simp [expectedStatus, encodeRequest, opcodeOf]

theorem expectedStatus_isok (f : Word) (s : State) : expectedStatus (encodeRequest (.isok f)) s = 0 := by
  simp [expectedStatus, encodeRequest, opcodeOf]

theorem expectedStatus_cinit (s : State) :
    expectedStatus (encodeRequest .cinit) s = if s.state = .ready then ErrorCode.alreadyReady.status else 0 := by
  simp [expectedStatus, encodeRequest, opcodeOf, ErrorCode.status]

theorem expectedStatus_lookup (k : Key) (s : State) :
    expectedStatus (encodeRequest (.lookup k)) s =
      if s.state = .unallocated then ErrorCode.notReady.status
      else if firstMatch k s.slots ≠ none ∧ (s.gcount = maxCount ∨ s.hits = maxCount) then ErrorCode.overflow.status
      else if firstMatch k s.slots = none ∧ s.misses = maxCount then ErrorCode.overflow.status
      else 0 := by
  simp [expectedStatus, encodeRequest, opcodeOf, ErrorCode.status]

theorem expectedStatus_insert (k : Key) (p : Payload) (s : State) :
    expectedStatus (encodeRequest (.insert k p)) s =
      if s.state = .unallocated then ErrorCode.notReady.status
      else if s.gcount = maxCount then ErrorCode.overflow.status
      else 0 := by
  simp [expectedStatus, encodeRequest, opcodeOf, ErrorCode.status]

theorem expectedStatus_patch (k : Key) (offset : BitVec 8) (len : BitVec 9) (p : Payload) (s : State) :
    expectedStatus (encodeRequest (.patch k offset len p)) s =
      if s.state = .unallocated then ErrorCode.notReady.status
      else if 256 < offset.toNat + len.toNat then ErrorCode.range.status
      else 0 := by
  simp [expectedStatus, encodeRequest, opcodeOf, ErrorCode.status]

theorem expectedStatus_stats (s : State) :
    expectedStatus (encodeRequest .stats) s = if s.state = .unallocated then ErrorCode.notReady.status else 0 := by
  simp [expectedStatus, encodeRequest, opcodeOf, ErrorCode.status]

theorem expectedStatus_cshut (s : State) :
    expectedStatus (encodeRequest .cshut) s = if s.state = .unallocated then ErrorCode.notReady.status else 0 := by
  simp [expectedStatus, encodeRequest, opcodeOf, ErrorCode.status]

/-- R185's chain reads of a request only what its command takes from it. -/
theorem expectedStatus_encodeRequest {q : Request} {i : Instr} (h : decodeRequest q = .ok i) (s : State) :
    expectedStatus (encodeRequest i) s = expectedStatus q s := by
  unfold decodeRequest at h
  split at h
  case h_10 => cases h
  all_goals next hop =>
    cases h
    simp [expectedStatus, encodeRequest, opcodeOf, Request.key, ← BitVec.toNat_inj, hop]

/-- The status of a command's response is that of the first check that the command fails. -/
theorem exec_status {i : Instr} (h : exec i s = .next t) (hr : t.rsp = some r) :
    r.status = expectedStatus (encodeRequest i) s := by
  cases i with
  | encode => rw [expectedStatus_encode]; exact status_of_finish h hr
  | decode => rw [expectedStatus_decode]; exact status_of_finish h hr
  | isok => rw [expectedStatus_isok]; exact status_of_finish h hr
  | cinit =>
    rw [expectedStatus_cinit]
    rcases execCinit_cases s with ⟨hready, he⟩ | ⟨hun, he⟩
    · simpa [hready] using status_of_raiseError (he.symm.trans h) hr
    · simpa [hun] using status_of_finish (he.symm.trans h) hr
  | lookup k =>
    rw [expectedStatus_lookup]
    rcases execLookup_cases k s with ⟨hun, he⟩ | ⟨hready, hmiss, hmax, he⟩ | ⟨hready, hmiss, hmisses, he⟩ |
      ⟨j, hready, hit, hmax, he⟩ | ⟨j, hready, hit, hgcount, hhits, he⟩
    · simpa [hun] using status_of_raiseError (he.symm.trans h) hr
    · simpa [hready, hmiss, hmax] using status_of_raiseError (he.symm.trans h) hr
    · simpa [hready, hmiss, hmisses] using status_of_finish (he.symm.trans h) hr
    · simpa [hready, hit, hmax] using status_of_raiseError (he.symm.trans h) hr
    · simpa [hready, hit, hgcount, hhits] using status_of_finish (he.symm.trans h) hr
  | insert k p =>
    rw [expectedStatus_insert]
    rcases execInsert_cases k p s with ⟨hun, he⟩ | ⟨hready, hmax, he⟩ | ⟨-, -, -, hstop⟩ |
      ⟨v, hready, hgcount, -, he⟩
    · simpa [hun] using status_of_raiseError (he.symm.trans h) hr
    · simpa [hready, hmax] using status_of_raiseError (he.symm.trans h) hr
    · cases hstop.symm.trans h
    · simpa [hready, hgcount] using status_of_finish (he.symm.trans h) hr
  | patch k offset len p =>
    rw [expectedStatus_patch]
    rcases execPatch_cases k offset len p s with ⟨hun, he⟩ | ⟨hready, hrun, he⟩ | ⟨hready, hfits, -, he⟩ |
      ⟨j, hready, hfits, -, he⟩
    · simpa [hun] using status_of_raiseError (he.symm.trans h) hr
    · simpa [hready, hrun] using status_of_raiseError (he.symm.trans h) hr
    · simpa [hready, hfits.not_gt] using status_of_finish (he.symm.trans h) hr
    · simpa [hready, hfits.not_gt] using status_of_finish (he.symm.trans h) hr
  | stats =>
    rw [expectedStatus_stats]
    rcases execStats_cases s with ⟨hun, he⟩ | ⟨hready, he⟩
    · simpa [hun] using status_of_raiseError (he.symm.trans h) hr
    · simpa [hready] using status_of_finish (he.symm.trans h) hr
  | cshut =>
    rw [expectedStatus_cshut]
    rcases execCshut_cases s with ⟨hun, he⟩ | ⟨hready, he⟩
    · simpa [hun] using status_of_raiseError (he.symm.trans h) hr
    · simpa [hready] using status_of_finish (he.symm.trans h) hr

end Sys2Proof.Machine
end

section
open Sys2Proof Sys2Proof.Machine

/-- Settles O35: a reserved op heads the chain, and any other request ends as its command does, whose checks stand in
the chain's order. -/
theorem statusFollowsPriority : Obligations.StatusFollowsPriority := by
  unfold Obligations.StatusFollowsPriority
  intro q s t r h hr
  rcases performRequest_cases q s with ⟨i, -, hdecode, hexec⟩ | ⟨hreserved, hillegal⟩
  · rw [← expectedStatus_encodeRequest hdecode]
    exact exec_status (hexec.symm.trans h) hr
  · rw [expectedStatus_of_reservedOp ((wellFormed_eq_false_iff q).mp hreserved)]
    exact status_of_raiseError (hillegal.symm.trans h) hr

end

section
/-! SUPPORT. What a command that gives a next state has left (R182), as a relation of one case per effect: a later proof
splits on the effects and never on a meaning. -/

namespace Sys2Proof.Machine

/-- CINIT's effect (R135). -/
@[simp] def allocate (s : State) : State :=
  { s with slots := invalidateAll s.slots, gcount := 0, hits := 0, misses := 0, state := .ready }

/-- CSHUT's effect (R156). -/
@[simp] def release (s : State) : State :=
  { s with slots := invalidateAll s.slots, state := .unallocated }

/-- LOOKUP's effect on a miss (R140). -/
@[simp] def countMiss (s : State) : State :=
  { s with misses := s.misses + 1 }

/-- LOOKUP's effect on a hit in slot `i` (R140). -/
@[simp] def countHit (i : Nat) (s : State) : State :=
  { touchSlot i s with hits := s.hits + 1 }

/-- What a LOOKUP hit in slot `i` drives: flag 1, the slot's bytes as they stand and its index (R140, R142). -/
def hitDriven (i : Nat) (s : State) : Driven :=
  { flag := some true, payload := some (payloadOfBytes (memRead s.store i 0 blockSize)), slot := some i }

/-- PATCH's effect on a hit in slot `i` (R150). -/
@[simp] def patchSlot (i : Nat) (offset : BitVec 8) (len : BitVec 9) (p : Payload) (s : State) : State :=
  { s with store := memWrite s.store i offset.toNat (payloadBytes len.toNat p) }

/-- The state that an error with the given code leaves, less its response (R184). -/
@[simp] def setFault (e : ErrorCode) (s : State) : State :=
  { s with fault := s.fault ||| e.faultBit }

/-- `CommandEffect s i t`: command `i` takes `s` to `t`. -/
inductive CommandEffect (s : State) : Instr → State → Prop
  /-- Any command may end with an error (R184). -/
  | error {i : Instr} (e : ErrorCode) : CommandEffect s i (respond (setFault e s) e.status {})
  | encodes {b0 b1 c0 c1 c2 d0 d1 : Word} (d : Driven) :
    CommandEffect s (.encode b0 b1 c0 c1 c2 d0 d1) (respond s statusOk d)
  | decodes {f : Word} (d : Driven) : CommandEffect s (.decode f) (respond s statusOk d)
  | tests {f : Word} (d : Driven) : CommandEffect s (.isok f) (respond s statusOk d)
  | reports : CommandEffect s .stats (respond s statusOk { hits := some s.hits, misses := some s.misses })
  | allocates (hun : s.state = .unallocated) : CommandEffect s .cinit (respond (allocate s) statusOk {})
  | releases (hready : s.state = .ready) :
    CommandEffect s .cshut (respond (release s) statusOk { hits := some s.hits, misses := some s.misses })
  | misses {k : Key} (hready : s.state = .ready) (hmiss : firstMatch k s.slots = none) (hmax : s.misses ≠ maxCount) :
    CommandEffect s (.lookup k) (respond (countMiss s) statusOk { flag := some false })
  | hits {k : Key} {j : Nat} (hready : s.state = .ready) (hit : firstMatch k s.slots = some j)
      (hgcount : s.gcount ≠ maxCount) (hhits : s.hits ≠ maxCount) :
    CommandEffect s (.lookup k)
      (respond (countHit j s) statusOk (hitDriven j s))
  | fills {k : Key} {p : Payload} {v : Nat} (hready : s.state = .ready) (hgcount : s.gcount ≠ maxCount)
      (hv : victim s.slots = some v) :
    CommandEffect s (.insert k p) (respond (fillSlot v k p s) statusOk { slot := some v })
  | patchMisses {k : Key} {offset : BitVec 8} {len : BitVec 9} {p : Payload} (hmiss : firstMatch k s.slots = none) :
    CommandEffect s (.patch k offset len p) (respond s statusOk { flag := some false })
  | patches {k : Key} {offset : BitVec 8} {len : BitVec 9} {p : Payload} {j : Nat} (hready : s.state = .ready)
      (hfits : offset.toNat + len.toNat ≤ 256) (hit : firstMatch k s.slots = some j) :
    CommandEffect s (.patch k offset len p)
      (respond (patchSlot j offset len p s) statusOk { flag := some true, slot := some j })

/-- An outcome that is known, and known to be a next state, is that state. -/
theorem next_unique {o : Host.Outcome State Fault Refusal} {s t : State} (h : o = .next t) (ho : o = .next s) :
    t = s := by
  cases h.symm.trans ho
  rfl

/-- Every next state of a command is one of its effects. -/
theorem exec_effect {i : Instr} {s t : State} (h : exec i s = .next t) : CommandEffect s i t := by
  cases i with
  | encode => cases h; exact .encodes _
  | decode => cases h; exact .decodes _
  | isok => cases h; exact .tests _
  | cinit =>
    rcases execCinit_cases s with ⟨-, he⟩ | ⟨hun, he⟩
    · exact next_unique h he ▸ .error _
    · exact next_unique h he ▸ .allocates hun
  | lookup k =>
    rcases execLookup_cases k s with ⟨-, he⟩ | ⟨-, -, -, he⟩ | ⟨hready, hmiss, hmax, he⟩ | ⟨j, -, -, -, he⟩ |
      ⟨j, hready, hit, hgcount, hhits, he⟩
    · exact next_unique h he ▸ .error _
    · exact next_unique h he ▸ .error _
    · exact next_unique h he ▸ .misses hready hmiss hmax
    · exact next_unique h he ▸ .error _
    · exact next_unique h he ▸ .hits hready hit hgcount hhits
  | insert k p =>
    rcases execInsert_cases k p s with ⟨-, he⟩ | ⟨-, -, he⟩ | ⟨-, -, -, hstop⟩ | ⟨v, hready, hgcount, hv, he⟩
    · exact next_unique h he ▸ .error _
    · exact next_unique h he ▸ .error _
    · cases hstop.symm.trans h
    · exact next_unique h he ▸ .fills hready hgcount hv
  | patch k offset len p =>
    rcases execPatch_cases k offset len p s with ⟨-, he⟩ | ⟨-, -, he⟩ | ⟨-, -, hmiss, he⟩ | ⟨j, hready, hfits, hit, he⟩
    · exact next_unique h he ▸ .error _
    · exact next_unique h he ▸ .error _
    · exact next_unique h he ▸ .patchMisses hmiss
    · exact next_unique h he ▸ .patches hready hfits hit
  | stats =>
    rcases execStats_cases s with ⟨-, he⟩ | ⟨-, he⟩
    · exact next_unique h he ▸ .error _
    · exact next_unique h he ▸ .reports
  | cshut =>
    rcases execCshut_cases s with ⟨-, he⟩ | ⟨hready, he⟩
    · exact next_unique h he ▸ .error _
    · exact next_unique h he ▸ .releases hready

/-- What a step that gives a next state has done: nothing, a reset, a command's effect, or ILLEGAL_OP. -/
theorem step_next_cases {s t : State} (h : step s = .next t) :
    t = s ∨
    (∃ rest, t = applyReset { s with port := rest }) ∨
    (∃ q rest i, s.port = .request q :: rest ∧ decodeRequest q = .ok i ∧
      CommandEffect { s with port := rest } i t) ∨
    ∃ rest, t = respond (setFault .illegalOp { s with port := rest }) ErrorCode.illegalOp.status {} := by
  rcases step_cases s with ⟨-, hs⟩ | ⟨q, rest, hport, hs⟩ | ⟨q, q', rest, -, hs⟩ | ⟨o, rest, -, hs⟩
  · exact .inl (next_unique h hs)
  · rcases performRequest_cases q { s with port := rest } with ⟨i, -, hdecode, hexec⟩ | ⟨-, hillegal⟩
    · exact .inr (.inr (.inl ⟨q, rest, i, hport, hdecode, exec_effect ((hs.trans hexec).symm.trans h)⟩))
    · exact .inr (.inr (.inr ⟨rest, next_unique h (hs.trans hillegal)⟩))
  · cases hs.symm.trans h
  · exact .inr (.inl ⟨rest, next_unique h hs⟩)

end Sys2Proof.Machine
end

section
/-! SUPPORT. The invariant under each effect. `Inv` of a state whose response is cleared is the invariant less its clause
on the response, and driving a response restores that clause; so each effect is shown to keep the rest. -/

namespace Sys2Proof.Machine

variable {s t : State}

theorem exists_getElem?_of_mem {slots : List Slot} {c : Slot} (h : c ∈ slots) : ∃ i : Nat, slots[i]? = some c :=
  List.mem_iff_getElem?.mp h

theorem Inv.withoutRsp (h : Inv s) : Inv { s with rsp := none } :=
  { h with rspInStep := fun _ hr => nomatch hr }

theorem Inv.withPort (h : Inv s) (port : List PortEvent) : Inv { s with port := port } :=
  { h with }

theorem ErrorCode.status_le (e : ErrorCode) : e.status ≤ 5 := by
  cases e <;> decide

/-- A response shows FAULT and STATE as they stand, so only its status is left to check (R182). -/
theorem inv_respond (h : Inv { s with rsp := none }) {status : BitVec 4} (hstatus : status ≤ 5) (d : Driven) :
    Inv (respond s status d) :=
  { h with rspInStep := fun _ hr => by cases hr; exact ⟨rfl, rfl, hstatus⟩ }

/-- `t` is `s` after a touch of slot `v`: GCOUNT is one higher, the slot is valid and carries it, and the other slots
stay (R11, R27). -/
structure TouchedSlot (v : Nat) (s t : State) : Prop where
  gcount : t.gcount = s.gcount + 1
  slot   : ∃ c, t.slots[v]? = some c ∧ c.valid = true ∧ c.recency = t.gcount
  others : ∀ j, j ≠ v → t.slots[j]? = s.slots[j]?
  length : t.slots.length = s.slots.length

theorem countHit_touchedSlot {k : Key} {j : Nat} (hit : firstMatch k s.slots = some j) :
    TouchedSlot j s (countHit j s) := by
  obtain ⟨⟨c, hc, hold⟩, -⟩ := (firstMatch_eq_some_iff k s.slots j).mp hit
  obtain ⟨hvalid, -⟩ := (Slot.holds_iff c k).mp hold
  refine ⟨rfl, ⟨{ c with recency := s.gcount + 1 }, by simp [hc], hvalid, rfl⟩, fun i hi => ?_, by simp⟩
  simp [Ne.symm hi]

theorem fillSlot_touchedSlot {v : Nat} (hv : v < s.slots.length) (k : Key) (p : Payload) :
    TouchedSlot v s (fillSlot v k p s) :=
  ⟨rfl, ⟨{ valid := true, key := k, recency := s.gcount + 1 }, by simp [hv], rfl, rfl⟩,
    fun j hj => by simp [List.getElem?_set_ne (Ne.symm hj)], by simp⟩

/-- Below its maximum a counter does not wrap (R183). -/
theorem toNat_add_one {x : Word} (h : x ≠ maxCount) : (x + 1).toNat = x.toNat + 1 := by
  bv_omega

namespace TouchedSlot

variable {v : Nat}

theorem toNat_gcount (h : TouchedSlot v s t) (hmax : s.gcount ≠ maxCount) : t.gcount.toNat = s.gcount.toNat + 1 := by
  rw [h.gcount]
  exact toNat_add_one hmax

/-- A slot after a touch is the touched one, at the new GCOUNT, or stood there before. -/
theorem slot_cases (h : TouchedSlot v s t) {i : Nat} {c : Slot} (hc : t.slots[i]? = some c) :
    (i = v ∧ c.valid = true ∧ c.recency = t.gcount) ∨ (i ≠ v ∧ s.slots[i]? = some c) := by
  by_cases hi : i = v
  · obtain ⟨d, hd, hvalid, hrecency⟩ := h.slot
    subst hi
    cases hd.symm.trans hc
    exact .inl ⟨rfl, hvalid, hrecency⟩
  · exact .inr ⟨hi, (h.others i hi).symm.trans hc⟩

theorem exists_touched (h : TouchedSlot v s t) : ∃ c ∈ t.slots, c.valid = true ∧ c.recency = t.gcount := by
  obtain ⟨c, hc, hvalid, hrecency⟩ := h.slot
  exact ⟨c, List.mem_of_getElem? hc, hvalid, hrecency⟩

theorem recencyRange (h : TouchedSlot v s t) (hmax : s.gcount ≠ maxCount)
    (hs : ∀ c ∈ s.slots, c.valid = true → 1 ≤ c.recency ∧ c.recency ≤ s.gcount) :
    ∀ c ∈ t.slots, c.valid = true → 1 ≤ c.recency ∧ c.recency ≤ t.gcount := by
  intro c hc hvalid
  have hg := h.toNat_gcount hmax
  obtain ⟨i, hi⟩ := exists_getElem?_of_mem hc
  rcases h.slot_cases hi with ⟨-, -, hrecency⟩ | ⟨-, hold⟩
  · rw [hrecency]
    bv_omega
  · have := hs c (List.mem_of_getElem? hold) hvalid
    bv_omega

/-- The new GCOUNT is above every old recency, so no second slot carries it. -/
theorem recencyDistinct (h : TouchedSlot v s t) (hmax : s.gcount ≠ maxCount)
    (hrange : ∀ c ∈ s.slots, c.valid = true → 1 ≤ c.recency ∧ c.recency ≤ s.gcount)
    (hs : ∀ (i j : Nat) (c d : Slot), s.slots[i]? = some c → s.slots[j]? = some d → c.valid = true → d.valid = true →
      c.recency = d.recency → i = j) :
    ∀ (i j : Nat) (c d : Slot), t.slots[i]? = some c → t.slots[j]? = some d → c.valid = true → d.valid = true →
      c.recency = d.recency → i = j := by
  intro i j c d hc hd hcv hdv heq
  have hg := h.toNat_gcount hmax
  rcases h.slot_cases hc with ⟨hi, -, hcr⟩ | ⟨-, hcs⟩ <;> rcases h.slot_cases hd with ⟨hj, -, hdr⟩ | ⟨-, hds⟩
  · exact hi.trans hj.symm
  · have := hrange d (List.mem_of_getElem? hds) hdv
    bv_omega
  · have := hrange c (List.mem_of_getElem? hcs) hcv
    bv_omega
  · exact hs i j c d hcs hds hcv hdv heq

end TouchedSlot

/-- A command that touches a slot below the GCOUNT maximum, and writes no byte outside the slots, keeps the invariant. -/
theorem Inv.touch {v : Nat} (h : Inv s) (ht : TouchedSlot v s t) (hmax : s.gcount ≠ maxCount)
    (hready : t.state = .ready) (hfault : t.fault = s.fault) (hhits : t.hits ≤ t.gcount) (hwf : Memory.wf t.store)
    (hbound : ∀ c ∈ t.store, c.1 < blockSize * t.slots.length) : Inv { t with rsp := none } where
  capacity := List.ne_nil_of_length_pos (by
    rw [ht.length]
    exact List.length_pos_of_ne_nil h.capacity)
  storeWf := hwf
  storeBound := hbound
  faultReserved := by simpa [hfault] using h.faultReserved
  unallocatedEmpty := fun hun => by simp [hready] at hun
  recencyRange := ht.recencyRange hmax h.recencyRange
  recencyDistinct := ht.recencyDistinct hmax h.recencyRange h.recencyDistinct
  lastTouched := fun _ _ => ht.exists_touched
  hitsBound := hhits
  rspInStep := fun _ hr => nomatch hr

/-- With every slot empty the clauses on recencies hold of nothing. -/
theorem Inv.empty (h : Inv s) (hslots : t.slots = invalidateAll s.slots) (hstore : t.store = s.store)
    (hfault : t.fault = s.fault) (hhits : t.hits ≤ t.gcount) (hlast : t.state = .ready → t.gcount = 0) :
    Inv { t with rsp := none } := by
  have hempty : ∀ c ∈ t.slots, c.valid = false := fun c hc => valid_of_mem_invalidateAll (hslots ▸ hc)
  exact
    { capacity := by simpa [hslots, invalidateAll] using h.capacity
      storeWf := by simpa only [hstore] using h.storeWf
      storeBound := by simpa only [hstore, hslots, length_invalidateAll] using h.storeBound
      faultReserved := by simpa only [hfault] using h.faultReserved
      unallocatedEmpty := fun _ => hempty
      recencyRange := fun c hc hvalid => by simp [hempty c hc] at hvalid
      recencyDistinct := fun i j c d hc _ hvalid => by simp [hempty c (List.mem_of_getElem? hc)] at hvalid
      lastTouched := fun hready hne => absurd (hlast hready) hne
      hitsBound := hhits
      rspInStep := fun _ hr => nomatch hr }

/-- A run that ends within slot `v` is listed within the slots. -/
theorem Inv.bound_memWrite (h : Inv s) {v off : Nat} {bs : List Byte} (hv : v < s.slots.length)
    (hfits : off + bs.length ≤ blockSize) : ∀ c ∈ memWrite s.store v off bs, c.1 < blockSize * s.slots.length :=
  Memory.bound_writeRun h.storeBound (by simp only [dataAddress, blockSize] at *; omega)

theorem inv_setFault (h : Inv s) (e : ErrorCode) : Inv { setFault e s with rsp := none } :=
  { h.withoutRsp with
    faultReserved := by simp [BitVec.extractLsb'_or, h.faultReserved]
    rspInStep := fun _ hr => nomatch hr }

theorem inv_countMiss (h : Inv s) : Inv { countMiss s with rsp := none } :=
  { h.withoutRsp with rspInStep := fun _ hr => nomatch hr }

theorem inv_countHit (h : Inv s) {k : Key} {j : Nat} (hready : s.state = .ready) (hit : firstMatch k s.slots = some j)
    (hgcount : s.gcount ≠ maxCount) : Inv { countHit j s with rsp := none } :=
  h.touch (countHit_touchedSlot hit) hgcount hready rfl
    (by have := h.hitsBound; simp only [countHit, touchSlot_gcount]; bv_omega) h.storeWf (by simpa using h.storeBound)

theorem inv_fillSlot (h : Inv s) {v : Nat} (hready : s.state = .ready) (hgcount : s.gcount ≠ maxCount)
    (hv : v < s.slots.length) (k : Key) (p : Payload) : Inv { fillSlot v k p s with rsp := none } :=
  h.touch (fillSlot_touchedSlot hv k p) hgcount hready rfl
    (by have := h.hitsBound; simp only [fillSlot_hits, fillSlot_gcount]; bv_omega) (Memory.wf_writeRun h.storeWf _ _)
    (by simpa using h.bound_memWrite hv (by simp [length_payloadBytes]))

theorem inv_patchSlot (h : Inv s) {j : Nat} {offset : BitVec 8} {len : BitVec 9} (hj : j < s.slots.length)
    (hfits : offset.toNat + len.toNat ≤ 256) (p : Payload) : Inv { patchSlot j offset len p s with rsp := none } :=
  { h.withoutRsp with
    rspInStep := fun _ hr => nomatch hr
    storeWf := Memory.wf_writeRun h.storeWf _ _
    storeBound := h.bound_memWrite hj (by rw [length_payloadBytes]; exact hfits) }

/-- After reset no slot is valid (R210). -/
theorem valid_of_mem_replicate_reset {n : Nat} {c : Slot} (h : c ∈ List.replicate n Slot.reset) : c.valid = false := by
  rw [List.eq_of_mem_replicate h]
  rfl

/-- The block right after reset meets the invariant, whatever waits at its port (R210). -/
theorem inv_resetWith {n : Nat} (hn : 0 < n) : Inv (State.resetWith n) := by
  have hempty : ∀ c ∈ (State.resetWith n).slots, c.valid = false := fun _ => valid_of_mem_replicate_reset
  exact
    { capacity := List.ne_nil_of_length_pos (by simpa [State.resetWith] using hn)
      storeWf := ⟨List.Pairwise.nil, fun _ hc => nomatch hc⟩
      storeBound := fun _ hc => nomatch hc
      faultReserved := by simp [State.resetWith]
      unallocatedEmpty := fun _ => hempty
      recencyRange := fun c hc hvalid => by simp [hempty c hc] at hvalid
      recencyDistinct := fun i j c d hc _ hvalid => by simp [hempty c (List.mem_of_getElem? hc)] at hvalid
      lastTouched := fun hready => nomatch hready
      hitsBound := BitVec.le_refl _
      rspInStep := fun _ hr => nomatch hr }

theorem inv_applyReset (h : Inv s) : Inv (applyReset s) :=
  { inv_resetWith (List.length_pos_of_ne_nil h.capacity) with }

/-- Every effect of a command keeps the invariant. -/
theorem CommandEffect.inv {i : Instr} (he : CommandEffect s i t) (h : Inv s) : Inv t := by
  have hok : statusOk ≤ 5 := by decide
  cases he with
  | error e => exact inv_respond (inv_setFault h e) e.status_le _
  | encodes | decodes | tests | reports | patchMisses => exact inv_respond h.withoutRsp hok _
  | allocates => exact inv_respond (h.empty (t := allocate s) rfl rfl rfl (BitVec.le_refl _) fun _ => rfl) hok _
  | releases =>
    exact inv_respond (h.empty (t := release s) rfl rfl rfl h.hitsBound fun hready => nomatch hready) hok _
  | misses => exact inv_respond (inv_countMiss h) hok _
  | hits hready hit hgcount => exact inv_respond (inv_countHit h hready hit hgcount) hok _
  | fills hready hgcount hv => exact inv_respond (inv_fillSlot h hready hgcount (victim_lt hv) _ _) hok _
  | patches _ hfits hit => exact inv_respond (inv_patchSlot h (firstMatch_lt hit) hfits _) hok _

end Sys2Proof.Machine
end

section
open Sys2Proof Sys2Proof.Machine

/-- Settles O4: a step does nothing, resets, has a command's effect or raises ILLEGAL_OP, and each keeps the
invariant. -/
theorem everyStepKeepsInvariant : Obligations.EveryStepKeepsInvariant := by
  unfold Obligations.EveryStepKeepsInvariant
  intro s t hinv h
  rcases step_next_cases h with rfl | ⟨rest, rfl⟩ | ⟨q, rest, i, -, -, he⟩ | ⟨rest, rfl⟩
  · exact hinv
  · exact inv_applyReset (hinv.withPort rest)
  · exact he.inv (hinv.withPort rest)
  · exact inv_respond (inv_setFault (hinv.withPort rest) .illegalOp) (ErrorCode.status_le _) _

/-- Settles O3: CACHE_N is at least 1, and the rest is `inv_resetWith`. -/
theorem resetMeetsInvariant : Obligations.ResetMeetsInvariant :=
  inv_resetWith (Nat.succ_pos _)

end

section
/-! SUPPORT. Reset, the port and dispatch (R62, R182, R189, R210). -/

namespace Sys2Proof.Machine

variable {s : State}

theorem step_of_noEvent (h : s.port = []) : step s = .next s := by
  simp only [step, runPort, h]

theorem step_of_overlap {q q' : Request} {rest : List PortEvent} (h : s.port = .overlap q q' :: rest) :
    step s = .refused .overlappingRequests := by
  simp only [step, runPort, h, performEvent]

theorem step_of_reset {o : Option Request} {rest : List PortEvent} (h : s.port = .reset o :: rest) :
    step s = .next (applyReset { s with port := rest }) := by
  simp only [step, runPort, h, performEvent]

theorem performRequest_of_decode {q : Request} {i : Instr} (h : decodeRequest q = .ok i) (s : State) :
    performRequest q s = exec i s := by
  simp only [performRequest, h]

theorem decodeRequest_encodeRequest (i : Instr) : decodeRequest (encodeRequest i) = .ok i := by
  cases i <;> rfl

theorem decodeRequest_of_decodeTableWord {nbits w : Nat} {i : Instr} (h : decodeTableWord nbits w = some i) :
    decodeRequest (Request.ofTableWord nbits w) = .ok i := by
  unfold decodeTableWord at h
  split at h
  next j hdecode =>
    cases h
    exact hdecode
  next => cases h

end Sys2Proof.Machine
end

section
open Sys2Proof Sys2Proof.Machine

/-- Settles O1: reset's values are written out, and CACHE_N is a number plus 1. -/
theorem resetLeavesStatedValues : Obligations.ResetLeavesStatedValues := by
  unfold Obligations.ResetLeavesStatedValues
  have hlength : State.reset.slots.length = Config.cacheN := List.length_replicate
  exact ⟨rfl, rfl, rfl, rfl, rfl, hlength, hlength ▸ Nat.succ_pos _, fun _ => valid_of_mem_replicate_reset, rfl, rfl, rfl⟩

/-- Settles O2: the reset event's next state reads of the old one only the number of slots, the later events and the
count of draws. -/
theorem resetEventRestoresResetValues : Obligations.ResetEventRestoresResetValues := by
  unfold Obligations.ResetEventRestoresResetValues
  intro s o rest hport
  exact ⟨_, step_of_reset hport, rfl, rfl, rfl, rfl, rfl, List.length_replicate,
    fun _ => valid_of_mem_replicate_reset, rfl, rfl, step_of_reset rfl⟩

/-- Settles O6, word by word. -/
theorem wordsDecodeToTheirCommands : Obligations.WordsDecodeToTheirCommands := by
  unfold Obligations.WordsDecodeToTheirCommands
  exact ⟨rfl, rfl, rfl, rfl, rfl, rfl, rfl, rfl, rfl, rfl, rfl, rfl, rfl, rfl, rfl, rfl⟩

/-- Settles O8: the decoder's answer selects the command, and the table word's request stands first at the port. -/
theorem stepRunsDecodedCommand : Obligations.StepRunsDecodedCommand := by
  unfold Obligations.StepRunsDecodedCommand
  refine ⟨fun s q rest i hport hdecode => ?_, fun s nbits w i hword => ?_⟩
  · rw [step_of_request hport, performRequest_of_decode hdecode]
  · have hport : (s.withFetchWord nbits w).port = .request (Request.ofTableWord nbits w) :: s.port := rfl
    rw [step_of_request hport, performRequest_of_decode (decodeRequest_of_decodeTableWord hword)]
    rfl

/-- Settles O10: the port refuses an overlap before either request is looked at. -/
theorem overlapIsRefused : Obligations.OverlapIsRefused := by
  unfold Obligations.OverlapIsRefused
  exact fun _ _ _ _ => step_of_overlap

/-- Settles O11: with no event the step is the state itself. -/
theorem noRequestNoAction : Obligations.NoRequestNoAction := by
  unfold Obligations.NoRequestNoAction
  exact fun _ => step_of_noEvent

/-- Settles O12: a request does what its command does, and the encoder's request decodes to the same command. -/
theorem ignoredFieldsHaveNoEffect : Obligations.IgnoredFieldsHaveNoEffect := by
  unfold Obligations.IgnoredFieldsHaveNoEffect
  intro q i s hdecode
  rw [performRequest_of_decode hdecode, performRequest_of_decode (decodeRequest_encodeRequest i)]

end

section
/-! SUPPORT. The flat request word (assumption 3): each field of R72 reads back from the concatenation, and the fields
cover the word. -/

namespace Sys2Proof.Machine

/-- A field read by number is the field of the word at those bits. -/
theorem ofNat_toNat_shiftRight {w : Nat} (x : BitVec w) (start k : Nat) :
    BitVec.ofNat k (x.toNat >>> start) = x.extractLsb' start k :=
  rfl

/-- The lowest field is read without a shift. -/
theorem ofNat_toNat_low {w : Nat} (x : BitVec w) (k : Nat) : BitVec.ofNat k x.toNat = x.extractLsb' 0 k :=
  rfl

theorem ofWord_toWord (r : Request) : Request.ofWord r.toWord = r := by
  obtain ⟨op, frame, b0, b1, c0, c1, c2, d0, d1, dev, sector, block, payload, offset, len⟩ := r
  simp (disch := omega) only [Request.ofWord, Request.ofNat, ofNat_toNat_shiftRight, ofNat_toNat_low, Request.toWord,
    extractLsb'_append_above, extractLsb'_append_low, extractLsb'_whole, Nat.reduceSub]

theorem toWord_ofWord (w : BitVec requestWidth) : (Request.ofWord w).toWord = w := by
  simp only [Request.ofWord, Request.ofNat, ofNat_toNat_shiftRight, ofNat_toNat_low, Request.toWord]
  simp (disch := omega) only [extractLsb'_adjacent, extractLsb'_whole]

end Sys2Proof.Machine
end

section
open Sys2Proof Sys2Proof.Machine

/-- Settles O5: the fields read back from their concatenation, they cover the word, and the encoder's request decodes to
its command. -/
theorem requestWordsRoundTrip : Obligations.RequestWordsRoundTrip := by
  unfold Obligations.RequestWordsRoundTrip
  refine ⟨ofWord_toWord, toWord_ofWord, fun i => ?_⟩
  rw [decodeWord, encodeWord, ofWord_toWord, decodeRequest_encodeRequest]

end

section
/-! SUPPORT. What every response shows (R182, R184, R188), and the width of a slot index (R6, R76). -/

namespace Sys2Proof.Machine

theorem ErrorCode.status_range (e : ErrorCode) : 1 ≤ e.status.toNat ∧ e.status.toNat ≤ 5 := by
  cases e <;> decide

/-- A response with an error status is the error's (R184): a command that performs answers OK. -/
theorem performRequest_error {q : Request} {s t : State} {r : Response} (h : performRequest q s = .next t)
    (hr : t.rsp = some r) (herr : r.status ≠ 0) :
    ∃ e : ErrorCode, raiseError e s = .next t ∧ r = responseOf (setFault e s) e.status {} := by
  rcases performRequest_next_cases h with ⟨e, rfl⟩ | ⟨s', d, rfl, -⟩
  · cases hr
    exact ⟨e, rfl, rfl⟩
  · cases hr
    exact absurd rfl herr

/-- A request is answered, and comes off the port alone, wherever there is a slot (R62, R180). -/
theorem performRequest_answered (q : Request) {s : State} (hslots : s.slots ≠ []) :
    ∃ t r, performRequest q s = .next t ∧ t.rsp = some r ∧ t.port = s.port := by
  rcases performRequest_answers q s with ⟨e, he⟩ | ⟨s', d, hd, -, hport, -⟩ | ⟨hnone, -⟩
  · exact ⟨_, _, he, rfl, rfl⟩
  · exact ⟨_, _, hd, rfl, hport⟩
  · exact absurd hnone hslots

theorem performRequest_length {q : Request} {s t : State} (h : performRequest q s = .next t) :
    t.slots.length = s.slots.length := by
  rcases performRequest_next_cases h with ⟨e, rfl⟩ | ⟨s', d, rfl, -, -, -, hlength, -⟩
  · rfl
  · exact hlength

theorem slotIndexWidth_of_two_lt {n : Nat} (h : 2 < n) : Config.slotIndexWidth n = Nat.log2 (n - 1) + 1 :=
  if_neg (by omega)

theorem slotIndexWidth_of_le_two {n : Nat} (h : n ≤ 2) : Config.slotIndexWidth n = 1 :=
  if_pos h

theorem one_le_slotIndexWidth (n : Nat) : 1 ≤ Config.slotIndexWidth n := by
  by_cases h : n ≤ 2
  · rw [slotIndexWidth_of_le_two h]
  · rw [slotIndexWidth_of_two_lt (by omega)]
    omega

theorem lt_two_pow_slotIndexWidth {n i : Nat} (hi : i < n) : i < 2 ^ Config.slotIndexWidth n := by
  by_cases h : n ≤ 2
  · rw [slotIndexWidth_of_le_two h]
    omega
  · rw [slotIndexWidth_of_two_lt (by omega)]
    have := Nat.lt_log2_self (n := n - 1)
    omega

/-- One bit less does not hold the last index (D26). -/
theorem two_pow_slotIndexWidth_sub_one_lt {n : Nat} (hn : 2 ≤ n) : 2 ^ (Config.slotIndexWidth n - 1) < n := by
  by_cases h : n ≤ 2
  · rw [slotIndexWidth_of_le_two h]
    omega
  · rw [slotIndexWidth_of_two_lt (by omega), Nat.add_sub_cancel]
    have := Nat.log2_self_le (n := n - 1) (by omega)
    omega

/-- A driven slot index that is one fits, and an undriven one is cut (assumption 9). -/
theorem responseOf_slot_lt {s : State} (status : BitVec 4) {d : Driven}
    (hd : ∀ n, d.slot = some n → n < s.slots.length) :
    (responseOf s status d).slot < 2 ^ Config.slotIndexWidth s.slots.length := by
  unfold responseOf
  cases hslot : d.slot with
  | none => exact Nat.mod_lt _ (Nat.two_pow_pos _)
  | some n => exact lt_two_pow_slotIndexWidth (hd n hslot)

end Sys2Proof.Machine
end

section
open Sys2Proof Sys2Proof.Machine

/-- Settles O34: the response of an error is `raiseError`'s. -/
theorem errorsArePrecise : Obligations.ErrorsArePrecise := by
  unfold Obligations.ErrorsArePrecise
  intro q s t r h hr herr
  obtain ⟨e, he, rfl⟩ := performRequest_error h hr herr
  obtain ⟨u, hu, hended⟩ := raiseError_endedWithError e s
  exact ⟨e.status_range, next_unique he hu ▸ hended⟩

/-- Settles O44: the response of an error drives no field. -/
theorem errorResponseFieldsAreDraws : Obligations.ErrorResponseFieldsAreDraws := by
  unfold Obligations.ErrorResponseFieldsAreDraws
  intro q s t r h hr herr
  obtain ⟨e, he, rfl⟩ := performRequest_error h hr herr
  cases he
  exact ⟨rfl, rfl, rfl, rfl, rfl, rfl, rfl, rfl, rfl, rfl, rfl, rfl, rfl, rfl⟩

/-- Settles O36: with an error or with OK, the response is driven last, from the state as it then stands. -/
theorem responseShowsStateAndFault : Obligations.ResponseShowsStateAndFault := by
  unfold Obligations.ResponseShowsStateAndFault
  intro q s t h
  rcases performRequest_next_cases h with ⟨e, rfl⟩ | ⟨s', d, rfl, -⟩
  · exact ⟨_, rfl, rfl, rfl⟩
  · exact ⟨_, rfl, rfl, rfl⟩

/-- Settles O41: a reset lists as many slots as there were, and a request keeps their number. -/
theorem capacityIsFixed : Obligations.CapacityIsFixed := by
  unfold Obligations.CapacityIsFixed
  intro s t h
  rcases step_cases s with ⟨-, hs⟩ | ⟨q, rest, -, hs⟩ | ⟨q, q', rest, -, hs⟩ | ⟨o, rest, -, hs⟩
  · rw [next_unique h hs]
  · exact performRequest_length (s := { s with port := rest }) (hs.symm.trans h)
  · cases hs.symm.trans h
  · rw [next_unique h hs, applyReset_slots, List.length_replicate]

/-- Settles O42: the invariant gives a slot, and with a slot every request is answered. -/
theorem everyRequestIsAnswered : Obligations.EveryRequestIsAnswered := by
  unfold Obligations.EveryRequestIsAnswered
  intro s q rest hinv hport
  rw [step_of_request hport]
  exact performRequest_answered q (s := { s with port := rest }) hinv.capacity

/-- Settles O43: the width by its two cases, and a response's index by whether it is driven. -/
theorem slotIndexFitsItsWidth : Obligations.SlotIndexFitsItsWidth := by
  unfold Obligations.SlotIndexFitsItsWidth
  refine ⟨fun _ _ => lt_two_pow_slotIndexWidth, one_le_slotIndexWidth, fun _ => two_pow_slotIndexWidth_sub_one_lt,
    fun q s t r h hr => ?_⟩
  rcases performRequest_next_cases h with ⟨e, rfl⟩ | ⟨s', d, rfl, -, -, -, hlength, hslot⟩
  · cases hr
    exact responseOf_slot_lt (s := setFault e s) e.status (d := {}) fun n hn => nomatch hn
  · cases hr
    rw [← hlength] at hslot ⊢
    exact responseOf_slot_lt statusOk hslot

end

section
/-! SUPPORT. What an effect does to STATE, to the counters and to the valid slots' keys (R25, R27, R28, R32, R136). -/

namespace Sys2Proof.Machine

variable {s t : State}

/-- Every valid slot of `t` was valid in `s` and held the same key there. -/
def KeepsKeys (s t : State) : Prop :=
  ∀ (i : Nat) (c : Slot), t.slots[i]? = some c → c.valid = true →
    ∃ d, s.slots[i]? = some d ∧ d.valid = true ∧ d.key = c.key

theorem keepsKeys_of_slots_eq (h : t.slots = s.slots) : KeepsKeys s t :=
  fun _ c hc hvalid => ⟨c, h ▸ hc, hvalid, rfl⟩

theorem keepsKeys_of_empty (h : ∀ c ∈ t.slots, c.valid = false) : KeepsKeys s t :=
  fun _ c hc hvalid => by simp [h c (List.mem_of_getElem? hc)] at hvalid

/-- A touch changes recencies only. -/
theorem keepsKeys_countHit (j : Nat) : KeepsKeys s (countHit j s) := by
  intro i c hc hvalid
  simp only [countHit, touchSlot_slots, List.getElem?_modify, Option.map_eq_map, Option.map_eq_some_iff] at hc
  obtain ⟨d, hd, rfl⟩ := hc
  refine ⟨d, hd, ?_, ?_⟩
  · split at hvalid <;> exact hvalid
  · split <;> rfl

/-- No effect but a fill makes a slot valid or changes a valid slot's key. -/
theorem CommandEffect.keepsKeys {i : Instr} (he : CommandEffect s i t) :
    KeepsKeys s t ∨ ∃ k p v, i = .insert k p ∧ v < s.slots.length ∧ t.slots = (fillSlot v k p s).slots := by
  cases he with
  | allocates => exact .inl (keepsKeys_of_empty fun _ => valid_of_mem_invalidateAll)
  | releases => exact .inl (keepsKeys_of_empty fun _ => valid_of_mem_invalidateAll)
  | hits => exact .inl (keepsKeys_countHit _)
  | fills _ _ hv => exact .inr ⟨_, _, _, rfl, victim_lt hv, rfl⟩
  | _ => exact .inl (keepsKeys_of_slots_eq rfl)

theorem KeepsKeys.uniqueKeys (h : KeepsKeys s t) (hs : UniqueKeys s) : UniqueKeys t := by
  intro i j c d hc hd hcv hdv hkey
  obtain ⟨c', hc', hcv', hck⟩ := h i c hc hcv
  obtain ⟨d', hd', hdv', hdk⟩ := h j d hd hdv
  exact hs i j c' d' hc' hd' hcv' hdv' (by rw [hck, hdk, hkey])

theorem KeepsKeys.empty (h : KeepsKeys s t) (hs : ∀ c ∈ s.slots, c.valid = false) : ∀ c ∈ t.slots, c.valid = false := by
  intro c hc
  obtain ⟨i, hi⟩ := exists_getElem?_of_mem hc
  by_contra hvalid
  obtain ⟨d, hd, hdv, -⟩ := h i c hi (by simpa using hvalid)
  simp [hs d (List.mem_of_getElem? hd)] at hdv

/-- A fill with a key that no slot holds makes no second holder (R160). -/
theorem uniqueKeys_fillSlot (hs : UniqueKeys s) {k : Key} (hnew : firstMatch k s.slots = none) (p : Payload) {v : Nat}
    (hv : v < s.slots.length) : UniqueKeys (fillSlot v k p s) := by
  have hfill := fillSlot_touchedSlot hv k p
  have hslot : (fillSlot v k p s).slots[v]? = some { valid := true, key := k, recency := s.gcount + 1 } := by simp [hv]
  have hnoHolder := (firstMatch_eq_none_iff_not_resident k s.slots).mp hnew
  intro i j c d hc hd hcv hdv hkey
  rcases hfill.slot_cases hc with ⟨rfl, -⟩ | ⟨-, hcs⟩ <;> rcases hfill.slot_cases hd with ⟨rfl, -⟩ | ⟨-, hds⟩
  · rfl
  · cases hslot.symm.trans hc
    exact absurd ⟨hdv, hkey.symm⟩ (hnoHolder d (List.mem_of_getElem? hds))
  · cases hslot.symm.trans hd
    exact absurd ⟨hcv, hkey⟩ (hnoHolder c (List.mem_of_getElem? hcs))
  · exact hs i j c d hcs hds hcv hdv hkey

theorem uniqueKeys_of_empty (h : ∀ c ∈ s.slots, c.valid = false) : UniqueKeys s :=
  fun _ _ c _ hc _ hvalid => by simp [h c (List.mem_of_getElem? hc)] at hvalid

end Sys2Proof.Machine
end

section
open Sys2Proof Sys2Proof.Machine

/-- Settles O46: after reset no slot is valid, and of the effects only a fill gives a slot a key, one that no slot
held. -/
theorem keysStayUnique : Obligations.KeysStayUnique := by
  unfold Obligations.KeysStayUnique
  refine ⟨uniqueKeys_of_empty fun _ => valid_of_mem_replicate_reset, fun s t hs hresidency h => ?_⟩
  rcases step_next_cases h with rfl | ⟨rest, rfl⟩ | ⟨q, rest, i, hport, hdecode, he⟩ | ⟨rest, rfl⟩
  · exact hs
  · exact uniqueKeys_of_empty fun _ => valid_of_mem_replicate_reset
  · rcases he.keepsKeys with hkeeps | ⟨k, p, v, hi, hv, hslots⟩
    · exact hkeeps.uniqueKeys hs
    · have hnew : firstMatch k s.slots = none := hresidency q rest i hport hdecode k p hi
      unfold UniqueKeys
      rw [hslots]
      exact uniqueKeys_fillSlot (s := { s with port := rest }) hs hnew p hv
  · exact hs

/-- Settles O38, effect by effect. -/
theorem onlyCinitAndCshutMoveState : Obligations.OnlyCinitAndCshutMoveState := by
  unfold Obligations.OnlyCinitAndCshutMoveState
  intro i s t h hmoved
  cases exec_effect h with
  | allocates hun => exact .inl ⟨rfl, hun, rfl⟩
  | releases hready => exact .inr ⟨rfl, hready, rfl⟩
  | _ => exact absurd rfl hmoved

/-- Settles O39, effect by effect: a hit and a fill are the two touches. -/
theorem gcountCountsTouches : Obligations.GcountCountsTouches := by
  unfold Obligations.GcountCountsTouches
  intro i s t h
  cases exec_effect h with
  | allocates => exact .inr (.inl ⟨rfl, rfl⟩)
  | hits _ hit hgcount =>
    have htouched := countHit_touchedSlot hit
    exact .inr (.inr ⟨htouched.toNat_gcount hgcount, .inr ⟨_, rfl, by simp [hit]⟩, htouched.exists_touched⟩)
  | @fills k p _ _ hgcount hv =>
    have htouched := fillSlot_touchedSlot (victim_lt hv) k p
    exact .inr (.inr ⟨htouched.toNat_gcount hgcount, .inl ⟨_, _, rfl⟩, htouched.exists_touched⟩)
  | _ => exact .inl rfl

/-- Settles O40, effect by effect. -/
theorem onlyLookupAndCinitChangeCounts : Obligations.OnlyLookupAndCinitChangeCounts := by
  unfold Obligations.OnlyLookupAndCinitChangeCounts
  intro i s t h
  cases exec_effect h with
  | allocates => exact .inr (.inl ⟨rfl, rfl, rfl⟩)
  | misses _ _ hmax => exact .inr (.inr ⟨⟨_, rfl⟩, .inr ⟨rfl, toNat_add_one hmax⟩⟩)
  | hits _ _ _ hhits => exact .inr (.inr ⟨⟨_, rfl⟩, .inl ⟨toNat_add_one hhits, rfl⟩⟩)
  | _ => exact .inl ⟨rfl, rfl⟩

end

section
/-! SUPPORT. FAULT along a run without reset (R26, R187): no step clears it, and an error leaves it nonzero. -/

namespace Sys2Proof.Machine

variable {s t : State}

theorem ErrorCode.or_faultBit_ne_zero (x : BitVec 8) (e : ErrorCode) : x ||| e.faultBit ≠ 0 := by
  have hbit : e.faultBit ≠ 0 := by cases e <;> decide
  intro h
  exact hbit (BitVec.or_eq_zero_iff.mp h).2

/-- A state reports no error: its latest response, if there is one, has status OK. -/
def ReportsNoError (s : State) : Prop :=
  ∀ r, s.rsp = some r → r.status = 0

/-- What stands at the port, after a step, stood there before. -/
theorem step_noReset (h : step s = .next t) (hs : ∀ o, .reset o ∉ s.port) : ∀ o, .reset o ∉ t.port := by
  rcases step_cases s with ⟨-, he⟩ | ⟨q, rest, hport, he⟩ | ⟨q, q', rest, -, he⟩ | ⟨o, rest, hport, -⟩
  · exact next_unique h he ▸ hs
  · have hrest : t.port = rest := by
      rcases performRequest_next_cases (he.symm.trans h) with ⟨e, rfl⟩ | ⟨s', d, rfl, -, hkept, -⟩
      · rfl
      · exact hkept
    intro o ho
    exact hs o (by rw [hport, ← hrest]; exact List.mem_cons_of_mem _ ho)
  · cases he.symm.trans h
  · exact absurd (by simp [hport]) (hs o)

/-- Where a step without reset leaves FAULT = 0, it was 0 and the step reported no error. -/
theorem step_of_fault_eq_zero (h : step s = .next t) (hs : ∀ o, .reset o ∉ s.port) (hfault : t.fault = 0) :
    s.fault = 0 ∧ (ReportsNoError s → ReportsNoError t) := by
  rcases step_cases s with ⟨-, he⟩ | ⟨q, rest, -, he⟩ | ⟨q, q', rest, -, he⟩ | ⟨o, rest, hport, -⟩
  · rw [next_unique h he] at hfault ⊢
    exact ⟨hfault, id⟩
  · rcases performRequest_next_cases (he.symm.trans h) with ⟨e, rfl⟩ | ⟨s', d, rfl, hkept, -⟩
    · exact absurd hfault (e.or_faultBit_ne_zero _)
    · exact ⟨hkept.symm.trans hfault, fun _ r hr => by cases hr; rfl⟩
  · cases he.symm.trans h
  · exact absurd (by simp [hport]) (hs o)

theorem fault_eq_zero_of_run {n : Nat} (hs : ∀ o, .reset o ∉ s.port)
    (h : Host.Core.run Sys2Proof.core n s = .next t) (hfault : t.fault = 0) : s.fault = 0 := by
  induction n generalizing s with
  | zero =>
    cases h
    exact hfault
  | succ n ih =>
    obtain ⟨u, hu, hrun⟩ := core_run_succ_cases h
    exact (step_of_fault_eq_zero hu hs (ih (step_noReset hu hs) hrun)).1

/-- Every point of a run without reset that ends with FAULT = 0 reports no error, where its start reports none. -/
theorem reportsNoError_of_run {n m : Nat} {u : State} (hs : ∀ o, .reset o ∉ s.port) (hok : ReportsNoError s)
    (h : Host.Core.run Sys2Proof.core n s = .next t) (hfault : t.fault = 0) (hm : m ≤ n)
    (hu : Host.Core.run Sys2Proof.core m s = .next u) : ReportsNoError u := by
  induction m generalizing s n with
  | zero =>
    cases hu
    exact hok
  | succ m ih =>
    obtain ⟨n, rfl⟩ := Nat.exists_eq_add_of_le' (Nat.le_trans (Nat.succ_pos m) hm)
    obtain ⟨w, hw, hrun⟩ := core_run_succ_cases h
    rw [core_run_succ_of_next m hw] at hu
    have hnoReset := step_noReset hw hs
    obtain ⟨-, hreport⟩ := step_of_fault_eq_zero hw hs (fault_eq_zero_of_run hnoReset hrun hfault)
    exact ih hnoReset (hreport hok) hrun (Nat.le_of_succ_le_succ hm) hu

end Sys2Proof.Machine
end

section
open Sys2Proof Sys2Proof.Machine

/-- Settles O53: FAULT = 0 at the end was FAULT = 0 at every point, where an error would have set a bit. -/
theorem zeroFaultRunHadNoError : Obligations.ZeroFaultRunHadNoError := by
  unfold Obligations.ZeroFaultRunHadNoError
  intro n s t hnoReset hok hrun hfault m u r hm hu hr
  exact reportsNoError_of_run hnoReset hok hrun hfault hm hu r hr

end

section
/-! SUPPORT. ENCODE, DECODE and ISOK against each other (R81, R107, R108, R111), the frames of the pseudo-instructions
(R85, R88), and a frame on the wire (R54). -/

namespace Sys2Proof.Machine

/-- The two status fields are the top byte (R111). -/
theorem frameSucceeds_iff_topByte (f : Word) : frameSucceeds f = true ↔ f.toNat / 2 ^ 56 = 0x11 := by
  rw [frameSucceeds_iff]
  have := f.isLt
  omega

/-- The success predicate of a frame reads only the two status fields it was packed from. -/
theorem frameSucceeds_packFields (x : FrameFields) :
    frameSucceeds (packFields x) = true ↔ x.b0.toNat = 1 ∧ x.b1.toNat = 1 := by
  simp only [frameSucceeds, unpackFields_packFields, Bool.and_eq_true, beq_iff_eq, ← BitVec.toNat_inj]
  rfl

/-- An operand is cut to its field's low bits, so operands that agree there give one field (R81). -/
theorem setWidth_eq_of_mod_eq {w : Nat} {x y : BitVec w} {k : Nat} (h : x.toNat % 2 ^ k = y.toNat % 2 ^ k) :
    x.setWidth k = y.setWidth k := by
  rw [← BitVec.toNat_inj, BitVec.toNat_setWidth, BitVec.toNat_setWidth, h]

/-- An operand that fits its field comes back from it (R107). -/
theorem setWidth_setWidth_of_lt {w : Nat} {x : BitVec w} {k : Nat} (h : x.toNat < 2 ^ k) :
    (x.setWidth k).setWidth w = x := by
  rw [← BitVec.toNat_inj, BitVec.toNat_setWidth, BitVec.toNat_setWidth, Nat.mod_eq_of_lt h, Nat.mod_eq_of_lt x.isLt]

/-- A field that is widened to an operand and truncated again is itself (R108). -/
theorem truncOperands_setWidth (x : FrameFields) :
    truncOperands (x.b0.setWidth 64) (x.b1.setWidth 64) (x.c0.setWidth 64) (x.c1.setWidth 64) (x.c2.setWidth 64)
      (x.d0.setWidth 64) (x.d1.setWidth 64) = x := by
  simp [truncOperands]

/-- The frame of R85's template as a number: opcode, device, direction, sector and block, each at its field. -/
theorem toNat_templateFrame (op direction : BitVec 8) (dev sec blk : Word) :
    (packFields (truncOperands 0 0 (op.setWidth 64) dev (direction.setWidth 64) sec blk)).toNat =
      op.toNat * 2 ^ 48 + dev.toNat % 2 ^ 8 * 2 ^ 40 + direction.toNat * 2 ^ 32 + sec.toNat % 2 ^ 16 * 2 ^ 16 +
        blk.toNat % 2 ^ 16 := by
  simp [toNat_packFields, truncOperands]

/-- The template's command answers with its frame. -/
theorem exec_frameTemplate (op direction : BitVec 8) (dev sec blk : Word) (s : State) {n : Nat}
    (hn : op.toNat * 2 ^ 48 + dev.toNat % 2 ^ 8 * 2 ^ 40 + direction.toNat * 2 ^ 32 + sec.toNat % 2 ^ 16 * 2 ^ 16 +
      blk.toNat % 2 ^ 16 = n) :
    ∃ t r, exec (frameTemplate op dev direction sec blk) s = .next t ∧ t.rsp = some r ∧ r.frame.toNat = n :=
  ⟨_, _, rfl, rfl, (toNat_templateFrame op direction dev sec blk).trans hn⟩

/-! ## The wire -/

/-- The wire bytes one by one. -/
theorem frameToWire_eq (f : Word) :
    frameToWire f =
      [f.extractLsb' 56 8, f.extractLsb' 48 8, f.extractLsb' 40 8, f.extractLsb' 32 8, f.extractLsb' 24 8,
        f.extractLsb' 16 8, f.extractLsb' 8 8, f.extractLsb' 0 8] :=
  rfl

theorem getElem?_frameToWire (f : Word) {k : Nat} (hk : k < 8) :
    (frameToWire f)[k]? = some (BitVec.ofNat 8 (f.toNat / 2 ^ (56 - 8 * k))) := by
  simp only [frameToWire, List.getElem?_map, List.getElem?_range hk, Option.map_some, BitVec.extractLsb',
    Nat.shiftRight_eq_div_pow]

/-- The rule's table: b0 and b1 share W0, c0 to c2 are bytes, d0 and d1 go high byte first (R54). -/
theorem frameToWire_packFields (x : FrameFields) :
    frameToWire (packFields x) =
      [x.b0 ++ x.b1, x.c0, x.c1, x.c2, x.d0.extractLsb' 8 8, x.d0.extractLsb' 0 8, x.d1.extractLsb' 8 8,
        x.d1.extractLsb' 0 8] := by
  have hsplit : packFields x = (x.b0 ++ x.b1) ++ x.c0 ++ x.c1 ++ x.c2 ++ x.d0 ++ x.d1 := rfl
  rw [frameToWire_eq, hsplit]
  simp (disch := omega) only [extractLsb'_append_above, extractLsb'_append_within, extractLsb'_whole,
    Nat.reduceSub]

theorem frameToWire_frameOfWire (w0 w1 w2 w3 w4 w5 w6 w7 : Byte) :
    frameToWire (frameOfWire w0 w1 w2 w3 w4 w5 w6 w7) = [w0, w1, w2, w3, w4, w5, w6, w7] := by
  rw [frameToWire_eq, frameOfWire]
  simp (disch := omega) only [extractLsb'_append_above, extractLsb'_append_low, extractLsb'_whole, Nat.reduceSub]

/-- The eight bytes cover the frame. -/
theorem frameOfWire_bytes (f : Word) :
    frameOfWire (f.extractLsb' 56 8) (f.extractLsb' 48 8) (f.extractLsb' 40 8) (f.extractLsb' 32 8) (f.extractLsb' 24 8)
      (f.extractLsb' 16 8) (f.extractLsb' 8 8) (f.extractLsb' 0 8) = f := by
  rw [frameOfWire]
  simp (disch := omega) only [extractLsb'_adjacent, extractLsb'_whole]

end Sys2Proof.Machine
end

section
open Sys2Proof Sys2Proof.Machine

/-- Settles O16: ISOK's flag is the success predicate, and ENCODE's frame packs the truncated b0 and b1. -/
theorem isokOfTopByteAndOfEncodedFrame : Obligations.IsokOfTopByteAndOfEncodedFrame := by
  unfold Obligations.IsokOfTopByteAndOfEncodedFrame
  refine ⟨fun f s t r h hr => ?_, fun b0 b1 c0 c1 c2 d0 d1 s t t' r r' h hr h' hr' => ?_⟩
  · cases h
    cases hr
    exact frameSucceeds_iff_topByte f
  · cases h
    cases hr
    cases h'
    cases hr'
    refine (frameSucceeds_packFields (truncOperands b0 b1 c0 c1 c2 d0 d1)).trans ?_
    simp only [truncOperands, BitVec.toNat_setWidth, Nat.reducePow]

/-- Settles O17: unpacking the packed operands gives them truncated, and truncation keeps an operand that fits. -/
theorem encodeThenDecodeTruncates : Obligations.EncodeThenDecodeTruncates := by
  unfold Obligations.EncodeThenDecodeTruncates
  intro b0 b1 c0 c1 c2 d0 d1 s
  refine ⟨_, _, _, _, rfl, rfl, rfl, rfl, ?_⟩
  simp only [responseOf, Option.getD_some, unpackFields_packFields, truncOperands]
  exact ⟨by simp, fun h0 h1 h2 h3 h4 h5 h6 =>
    ⟨setWidth_setWidth_of_lt h0, setWidth_setWidth_of_lt h1, setWidth_setWidth_of_lt h2, setWidth_setWidth_of_lt h3,
      setWidth_setWidth_of_lt h4, setWidth_setWidth_of_lt h5, setWidth_setWidth_of_lt h6⟩⟩

/-- Settles O18: a frame is the assembly of its fields, and a widened field is truncated to itself. -/
theorem decodeThenEncodeRestores : Obligations.DecodeThenEncodeRestores := by
  unfold Obligations.DecodeThenEncodeRestores
  intro f s
  refine ⟨_, _, _, _, rfl, rfl, rfl, rfl, ?_⟩
  exact (congrArg packFields (truncOperands_setWidth (unpackFields f))).trans (packFields_unpackFields f)

/-- Settles O19: ENCODE reads its operands through their truncation alone. -/
theorem upperOperandBitsReachNothing : Obligations.UpperOperandBitsReachNothing := by
  unfold Obligations.UpperOperandBitsReachNothing
  intro b0 b1 c0 c1 c2 d0 d1 b0' b1' c0' c1' c2' d0' d1' s h0 h1 h2 h3 h4 h5 h6
  have htrunc : truncOperands b0 b1 c0 c1 c2 d0 d1 = truncOperands b0' b1' c0' c1' c2' d0' d1' := by
    simp only [truncOperands, setWidth_eq_of_mod_eq (k := 4) h0, setWidth_eq_of_mod_eq (k := 4) h1,
      setWidth_eq_of_mod_eq (k := 8) h2, setWidth_eq_of_mod_eq (k := 8) h3, setWidth_eq_of_mod_eq (k := 8) h4,
      setWidth_eq_of_mod_eq (k := 16) h5, setWidth_eq_of_mod_eq (k := 16) h6]
  simp only [exec, execEncode, htrunc]

/-- Settles O20: the bytes are the frame's from the top down, and the eight of them cover it. -/
theorem wireIsBigEndian : Obligations.WireIsBigEndian := by
  unfold Obligations.WireIsBigEndian
  refine ⟨fun f k => getElem?_frameToWire f, frameToWire_packFields, frameToWire_frameOfWire,
    fun f w0 w1 w2 w3 w4 w5 w6 w7 h => ?_⟩
  rw [frameToWire_eq] at h
  cases h
  exact frameOfWire_bytes f

/-- Settles O21: each frame is the template's, with zero for what the operation does not name. -/
theorem pseudoInstructionFrames : Obligations.PseudoInstructionFrames := by
  unfold Obligations.PseudoInstructionFrames
  intro c dev sec blk s
  refine ⟨?_, ?_, ?_, ?_, ?_, ?_⟩
  · exact exec_frameTemplate c.opPowerOn 0 0 0 0 s (by simp)
  · exact exec_frameTemplate c.opPowerOff 0 0 0 0 s (by simp)
  · exact exec_frameTemplate c.opDevprobe 0 0 0 0 s (by simp)
  · exact exec_frameTemplate c.opDevinit 0 dev 0 0 s (by simp)
  · exact exec_frameTemplate c.opBlockXfer c.xferRead dev sec blk s rfl
  · exact exec_frameTemplate c.opBlockXfer c.xferWrite dev sec blk s rfl

end

section
/-! SUPPORT. The Block Cache commands where they perform (R140, R145, R150): the effect of each outcome from what it rests
on, and what the effects do to slots and bytes. -/

namespace Sys2Proof.Machine

variable {s : State} {k : Key}

/-- The key match, from the slots one by one (R131). -/
theorem firstMatch_of_first {slots : List Slot} {i : Nat} {c : Slot} (hc : slots[i]? = some c) (hvalid : c.valid = true)
    (hkey : c.key = k)
    (hfirst : ∀ (j : Nat) (d : Slot), j < i → slots[j]? = some d → ¬(d.valid = true ∧ d.key = k)) :
    firstMatch k slots = some i := by
  rw [firstMatch_eq_some_iff]
  refine ⟨⟨c, hc, (Slot.holds_iff c k).mpr ⟨hvalid, hkey⟩⟩, fun j d hj hd => ?_⟩
  rw [← Bool.not_eq_true, Slot.holds_iff]
  exact hfirst j d hj hd

/-- With every slot valid, the victim is the slot whose recency is smallest and first so (R146). -/
theorem victim_of_leastRecent {slots : List Slot} {v : Nat} {c : Slot} (hfull : ∀ d ∈ slots, d.valid = true)
    (hc : slots[v]? = some c) (hleast : ∀ d ∈ slots, c.recency ≤ d.recency)
    (hfirst : ∀ (j : Nat) (d : Slot), j < v → slots[j]? = some d → c.recency < d.recency) : victim slots = some v := by
  have hne : slots ≠ [] := List.ne_nil_of_mem (List.mem_of_getElem? hc)
  obtain ⟨w, d, hw, hd, hmin⟩ := victim_of_full hne ((firstEmpty_eq_none_iff slots).mpr hfull)
  obtain ⟨-, hvw⟩ := hmin v c hc
  have hle := hleast d (List.mem_of_getElem? hd)
  rcases Nat.lt_trichotomy v w with hlt | rfl | hlt
  · have := hvw hlt
    bv_omega
  · exact hw
  · have := hfirst w d hlt hd
    have := (hmin v c hc).1
    bv_omega

theorem exec_lookup_of_miss (h : s.state = .ready) (hmiss : firstMatch k s.slots = none) (hmax : s.misses ≠ maxCount) :
    exec (.lookup k) s = .next (respond (countMiss s) statusOk { flag := some false }) := by
  rcases execLookup_cases k s with ⟨hun, -⟩ | ⟨-, -, hmisses, -⟩ | ⟨-, -, -, he⟩ | ⟨j, -, hit, -⟩ | ⟨j, -, hit, -⟩
  · simp [h] at hun
  · exact absurd hmisses hmax
  · exact he
  all_goals simp [hmiss] at hit

theorem exec_lookup_of_hit (h : s.state = .ready) {i : Nat} (hit : firstMatch k s.slots = some i)
    (hgcount : s.gcount ≠ maxCount) (hhits : s.hits ≠ maxCount) :
    exec (.lookup k) s = .next (respond (countHit i s) statusOk (hitDriven i s)) := by
  rcases execLookup_cases k s with ⟨hun, -⟩ | ⟨-, hmiss, -⟩ | ⟨-, hmiss, -⟩ | ⟨j, -, -, hmax, -⟩ | ⟨j, -, hj, -, -, he⟩
  · simp [h] at hun
  · simp [hit] at hmiss
  · simp [hit] at hmiss
  · simp [hgcount, hhits] at hmax
  · cases hit.symm.trans hj
    exact he

theorem exec_insert_of_victim (h : s.state = .ready) (hgcount : s.gcount ≠ maxCount) {v : Nat}
    (hv : victim s.slots = some v) (p : Payload) :
    exec (.insert k p) s = .next (respond (fillSlot v k p s) statusOk { slot := some v }) := by
  rcases execInsert_cases k p s with ⟨hun, -⟩ | ⟨-, hmax, -⟩ | ⟨-, -, hnone, -⟩ | ⟨w, -, -, hw, he⟩
  · simp [h] at hun
  · exact absurd hmax hgcount
  · simp [hnone, victim, firstEmpty] at hv
  · cases hv.symm.trans hw
    exact he

theorem exec_insert_of_noSlots (h : s.state = .ready) (hgcount : s.gcount ≠ maxCount) (hslots : s.slots = [])
    (p : Payload) : exec (.insert k p) s = .fault .noSlots := by
  rcases execInsert_cases k p s with ⟨hun, -⟩ | ⟨-, hmax, -⟩ | ⟨-, -, -, he⟩ | ⟨w, -, -, hw, -⟩
  · simp [h] at hun
  · exact absurd hmax hgcount
  · exact he
  · simp [hslots, victim, firstEmpty] at hw

theorem exec_patch_of_miss (h : s.state = .ready) {offset : BitVec 8} {len : BitVec 9}
    (hfits : offset.toNat + len.toNat ≤ 256) (hmiss : firstMatch k s.slots = none) (p : Payload) :
    exec (.patch k offset len p) s = .next (respond s statusOk { flag := some false }) := by
  rcases execPatch_cases k offset len p s with ⟨hun, -⟩ | ⟨-, hrun, -⟩ | ⟨-, -, -, he⟩ | ⟨j, -, -, hit, -⟩
  · simp [h] at hun
  · omega
  · exact he
  · simp [hmiss] at hit

theorem exec_patch_of_hit (h : s.state = .ready) {offset : BitVec 8} {len : BitVec 9}
    (hfits : offset.toNat + len.toNat ≤ 256) {i : Nat} (hit : firstMatch k s.slots = some i) (p : Payload) :
    exec (.patch k offset len p) s =
      .next (respond (patchSlot i offset len p s) statusOk { flag := some true, slot := some i }) := by
  rcases execPatch_cases k offset len p s with ⟨hun, -⟩ | ⟨-, hrun, -⟩ | ⟨-, -, hmiss, -⟩ | ⟨j, -, -, hj, he⟩
  · simp [h] at hun
  · omega
  · simp [hit] at hmiss
  · cases hit.symm.trans hj
    exact he

/-- A write of a run reaches no address outside the run. -/
theorem read_memWrite_outside (m : Memory) {i off a : Nat} {bs : List Byte}
    (h : ¬(dataAddress i off ≤ a ∧ a < dataAddress i off + bs.length)) :
    Memory.read (memWrite m i off bs) a = Memory.read m a := by
  rw [memWrite, Memory.read_writeRun, if_neg h]

/-- A byte of slot `i` after the first `n` bytes of a payload are written to it from offset `off`. -/
theorem read_memWrite_payloadBytes (m : Memory) (i off n x : Nat) (p : Payload) :
    Memory.read (memWrite m i off (payloadBytes n p)) (dataAddress i x) =
      if off ≤ x ∧ x < off + n then payloadByte p (x - off) else Memory.read m (dataAddress i x) := by
  rw [read_memWrite_same, length_payloadBytes]
  split
  · exact getD_payloadBytes p (by omega) 0
  · rfl

/-- The bytes of slot `v` after a fill are the payload's (R145). -/
theorem slotByte_fillSlot (v : Nat) (k : Key) (p : Payload) (s : State) {n : Nat} (hn : n < blockSize) :
    slotByte (fillSlot v k p s) v n = payloadByte p n := by
  rw [slotByte, fillSlot_store, read_memWrite_payloadBytes, if_pos (by omega), Nat.sub_zero]

/-- A fill of slot `v` leaves every other slot's bytes (R145). -/
theorem slotByte_fillSlot_other {v j : Nat} (hj : j ≠ v) (k : Key) (p : Payload) (s : State) {n : Nat}
    (hn : n < blockSize) : slotByte (fillSlot v k p s) j n = slotByte s j n :=
  read_memWrite_other hn (by simp [length_payloadBytes]) hj

/-- The snapshot holds the slot's bytes as they stand (R142). -/
theorem payloadByte_snapshot (s : State) (i : Nat) {n : Nat} (hn : n < blockSize) :
    payloadByte (payloadOfBytes (memRead s.store i 0 blockSize)) n = slotByte s i n := by
  rw [payloadByte_payloadOfBytes _ hn, getD_memRead hn, Nat.zero_add, slotByte]

/-- What R145 says of an INSERT is what `fillSlot` and the response do. -/
theorem fillSlot_filledSlot {v : Nat} (hgcount : s.gcount ≠ maxCount) (hv : v < s.slots.length) (k : Key) (p : Payload) :
    FilledSlot v k p s (respond (fillSlot v k p s) statusOk { slot := some v }) where
  gcount := toNat_add_one hgcount
  slot := by simp [hv]
  length := by simp
  others := (fillSlot_touchedSlot hv k p).others
  data := fun _ hn => slotByte_fillSlot v k p s hn
  bytes := fun a ha => read_memWrite_outside s.store (by rwa [length_payloadBytes])
  state := rfl
  hits := rfl
  misses := rfl
  fault := rfl
  port := rfl
  rsp := ⟨_, rfl, rfl, rfl, rfl, rfl, rfl⟩

theorem exec_insert_fills (h : s.state = .ready) (hgcount : s.gcount ≠ maxCount) {v : Nat}
    (hv : victim s.slots = some v) (k : Key) (p : Payload) :
    ∃ t, exec (.insert k p) s = .next t ∧ FilledSlot v k p s t :=
  ⟨_, exec_insert_of_victim h hgcount hv p, fillSlot_filledSlot hgcount (victim_lt hv) k p⟩

end Sys2Proof.Machine
end

section
open Sys2Proof Sys2Proof.Machine

/-- Settles O24: the slot is the first match, and a hit touches it and counts. -/
theorem lookupHit : Obligations.LookupHit := by
  unfold Obligations.LookupHit
  intro s k i c hready hc hvalid hkey hfirst hgcount hhits
  have hit := firstMatch_of_first hc hvalid hkey hfirst
  have htouched := countHit_touchedSlot hit
  exact ⟨_, _, exec_lookup_of_hit hready hit hgcount hhits, rfl, rfl, rfl, rfl, fun n => payloadByte_snapshot s i,
    toNat_add_one hgcount, toNat_add_one hhits, by simp [hc], htouched.length, htouched.others, rfl, rfl, rfl,
    fun _ => rfl, rfl⟩

/-- Settles O25: a miss only counts. -/
theorem lookupMiss : Obligations.LookupMiss := by
  unfold Obligations.LookupMiss
  intro s k hready hnone hmax
  have hmiss := (firstMatch_eq_none_iff_not_resident k s.slots).mpr hnone
  exact ⟨_, _, exec_lookup_of_miss hready hmiss hmax, rfl, rfl, rfl, toNat_add_one hmax, rfl, rfl, rfl, rfl, rfl,
    fun _ => rfl, rfl⟩

/-- Settles O26: the first empty slot is the victim. -/
theorem insertFillsFirstEmptySlot : Obligations.InsertFillsFirstEmptySlot := by
  unfold Obligations.InsertFillsFirstEmptySlot
  intro s k p v c hready hgcount hc hempty hfirst
  have hv := victim_of_firstEmpty ((firstEmpty_eq_some_iff s.slots v).mpr ⟨⟨c, hc, hempty⟩, hfirst⟩)
  exact exec_insert_fills hready hgcount hv k p

/-- Settles O27: with no empty slot, the slot of smallest recency is the victim. -/
theorem insertEvictsLeastRecent : Obligations.InsertEvictsLeastRecent := by
  unfold Obligations.InsertEvictsLeastRecent
  intro s k p v c hready hgcount hfull hc hleast hfirst
  exact exec_insert_fills hready hgcount (victim_of_leastRecent hfull hc hleast hfirst) k p

/-- Settles O28: there is a victim exactly where there is a slot. -/
theorem insertCompletesExactlyWithASlot : Obligations.InsertCompletesExactlyWithASlot := by
  unfold Obligations.InsertCompletesExactlyWithASlot
  intro s k p hready hgcount
  refine ⟨fun hne => ?_, fun hnone => exec_insert_of_noSlots hready hgcount hnone p⟩
  obtain ⟨v, hv⟩ := exists_victim hne
  obtain ⟨t, ht, hfilled⟩ := exec_insert_fills hready hgcount hv k p
  exact ⟨v, t, victim_lt hv, ht, hfilled⟩

/-- Settles O29: the slot is the first match, and the run is written to it and to no other address. -/
theorem patchWritesRun : Obligations.PatchWritesRun := by
  unfold Obligations.PatchWritesRun
  intro s k offset len p i c hready hfits hc hvalid hkey hfirst
  have hit := firstMatch_of_first hc hvalid hkey hfirst
  refine ⟨_, _, exec_patch_of_hit hready hfits hit p, rfl, rfl, rfl, rfl, fun n hn => ?_, fun a ha => ?_, rfl,
    ⟨rfl, rfl, rfl, rfl, rfl⟩, rfl⟩
  · rw [slotByte, respond_store, patchSlot, read_memWrite_payloadBytes, if_pos (by omega), Nat.add_sub_cancel_left]
  · exact read_memWrite_outside s.store (by rwa [length_payloadBytes])

/-- Settles O30: a PATCH that misses only responds. -/
theorem patchMissChangesNothing : Obligations.PatchMissChangesNothing := by
  unfold Obligations.PatchMissChangesNothing
  intro s k offset len p hready hfits hnone
  have hmiss := (firstMatch_eq_none_iff_not_resident k s.slots).mpr hnone
  exact ⟨_, _, exec_patch_of_miss hready hfits hmiss p, rfl, rfl, rfl, respond_onlyResponds s _ _⟩

end

section
/-! SUPPORT. What empty slots hold is unread (R31): two slot arrays with their bytes that differ only there give every
scan one answer, every effect keeps them so, and two outcomes from them agree. -/

namespace Sys2Proof.Machine

/-- The slot arrays `slots` and `slots'`, with their bytes, differ only in what slots with valid = 0 hold (R31). -/
structure SameContents (slots slots' : List Slot) (store store' : Memory) : Prop where
  length : slots'.length = slots.length
  valid  : ∀ (i : Nat) (c d : Slot), slots[i]? = some c → slots'[i]? = some d → c.valid = d.valid
  held   : ∀ (i : Nat) (c d : Slot), slots[i]? = some c → slots'[i]? = some d → c.valid = true →
    d.key = c.key ∧ d.recency = c.recency ∧
      ∀ k, k < blockSize → Memory.read store' (dataAddress i k) = Memory.read store (dataAddress i k)

theorem eq_of_getElem?_set_self {slots : List Slot} {v : Nat} {c d : Slot} (h : (slots.set v c)[v]? = some d) :
    d = c := by
  rw [List.getElem?_set_self'] at h
  obtain ⟨-, -, rfl⟩ := Option.map_eq_some_iff.mp h
  rfl

theorem getElem?_set_cases {slots : List Slot} {v i : Nat} {c d : Slot} (h : (slots.set v c)[i]? = some d) :
    (i = v ∧ d = c) ∨ (i ≠ v ∧ slots[i]? = some d) := by
  by_cases hi : i = v
  · subst hi
    exact .inl ⟨rfl, eq_of_getElem?_set_self h⟩
  · rw [List.getElem?_set_ne (Ne.symm hi)] at h
    exact .inr ⟨hi, h⟩

/-- A scan of equally long lists by predicates that agree index by index finds the same index. -/
theorem findIdx?_congr {slots slots' : List Slot} {p : Slot → Bool} (hlength : slots'.length = slots.length)
    (h : ∀ (i : Nat) (c d : Slot), slots[i]? = some c → slots'[i]? = some d → p d = p c) :
    slots'.findIdx? p = slots.findIdx? p := by
  have hmap : slots'.map p = slots.map p := by
    refine List.ext_getElem (by simpa using hlength) fun i hi hi' => ?_
    rw [List.length_map] at hi hi'
    simpa using h i slots[i] slots'[i] (by simp [hi']) (by simp [hi])
  rw [← Function.id_comp p, ← List.findIdx?_map, ← List.findIdx?_map, hmap]

namespace SameContents

variable {slots slots' : List Slot} {store store' : Memory}

theorem refl (slots : List Slot) (store : Memory) : SameContents slots slots store store where
  length := rfl
  valid := fun i c d hc hd => by cases hc.symm.trans hd; rfl
  held := fun i c d hc hd _ => by cases hc.symm.trans hd; exact ⟨rfl, rfl, fun _ _ => rfl⟩

/-- No empty slot matches, and the others hold the same keys. -/
theorem firstMatch_eq (h : SameContents slots slots' store store') (k : Key) :
    firstMatch k slots' = firstMatch k slots := by
  refine findIdx?_congr h.length fun i c d hc hd => ?_
  rw [Bool.eq_iff_iff, Slot.holds_iff, Slot.holds_iff, ← h.valid i c d hc hd, and_congr_right_iff]
  intro hvalid
  obtain ⟨hkey, -⟩ := h.held i c d hc hd hvalid
  rw [hkey]

theorem firstEmpty_eq (h : SameContents slots slots' store store') : firstEmpty slots' = firstEmpty slots :=
  findIdx?_congr h.length fun i c d hc hd => by rw [h.valid i c d hc hd]

/-- With no empty slot there is nothing to differ in. -/
theorem slots_eq_of_full (h : SameContents slots slots' store store') (hfull : firstEmpty slots = none) :
    slots' = slots := by
  refine List.ext_getElem h.length fun i hi hi' => ?_
  have hc : slots[i]? = some slots[i] := by simp [hi']
  have hd : slots'[i]? = some slots'[i] := by simp [hi]
  have hvalid := (firstEmpty_eq_none_iff slots).mp hfull slots[i] (List.getElem_mem hi')
  obtain ⟨hkey, hrecency, -⟩ := h.held i _ _ hc hd hvalid
  have hsame := h.valid i _ _ hc hd
  generalize slots'[i] = d, slots[i] = c at hkey hrecency hsame
  cases c
  cases d
  rw [Slot.mk.injEq]
  exact ⟨hsame.symm, hkey, hrecency⟩

theorem victim_eq (h : SameContents slots slots' store store') : victim slots' = victim slots := by
  cases he : firstEmpty slots with
  | some i => rw [victim_of_firstEmpty he, victim_of_firstEmpty (h.firstEmpty_eq.trans he)]
  | none => rw [h.slots_eq_of_full he]

/-- The bytes of a slot that the key match finds are the same. -/
theorem memRead_eq (h : SameContents slots slots' store store') {k : Key} {j : Nat} (hit : firstMatch k slots = some j) :
    memRead store' j 0 blockSize = memRead store j 0 blockSize := by
  obtain ⟨⟨c, hc, hold⟩, -⟩ := (firstMatch_eq_some_iff k slots j).mp hit
  obtain ⟨hvalid, -⟩ := (Slot.holds_iff c k).mp hold
  have hj : j < slots'.length := h.length ▸ firstMatch_lt hit
  obtain ⟨-, -, hbytes⟩ := h.held j c slots'[j] hc (by simp [hj]) hvalid
  refine List.map_congr_left fun n hn => ?_
  rw [Nat.zero_add]
  exact hbytes n (List.mem_range.mp hn)

theorem invalidateAll (h : SameContents slots slots' store store') :
    SameContents (invalidateAll slots) (invalidateAll slots') store store' where
  length := by simpa using h.length
  valid := fun i c d hc hd => by
    rw [valid_of_mem_invalidateAll (List.mem_of_getElem? hc), valid_of_mem_invalidateAll (List.mem_of_getElem? hd)]
  held := fun i c d hc _ hvalid => by
    simp [valid_of_mem_invalidateAll (List.mem_of_getElem? hc)] at hvalid

/-- A touch gives one recency to the slot in both arrays. -/
theorem modify_recency (h : SameContents slots slots' store store') (j : Nat) (g : Word) :
    SameContents (slots.modify j fun c => { c with recency := g }) (slots'.modify j fun c => { c with recency := g })
      store store' where
  length := by simpa using h.length
  valid := fun i c d hc hd => by
    simp only [List.getElem?_modify, Option.map_eq_map, Option.map_eq_some_iff] at hc hd
    obtain ⟨c₀, hc₀, rfl⟩ := hc
    obtain ⟨d₀, hd₀, rfl⟩ := hd
    have := h.valid i c₀ d₀ hc₀ hd₀
    split <;> exact this
  held := fun i c d hc hd hvalid => by
    simp only [List.getElem?_modify, Option.map_eq_map, Option.map_eq_some_iff] at hc hd
    obtain ⟨c₀, hc₀, rfl⟩ := hc
    obtain ⟨d₀, hd₀, rfl⟩ := hd
    have hvalid₀ : c₀.valid = true := by split at hvalid <;> exact hvalid
    obtain ⟨hkey, hrecency, hbytes⟩ := h.held i c₀ d₀ hc₀ hd₀ hvalid₀
    split
    · exact ⟨hkey, rfl, hbytes⟩
    · exact ⟨hkey, hrecency, hbytes⟩

/-- A run written to one place in both stores keeps the bytes that agreed in agreement. -/
theorem write (h : SameContents slots slots' store store') (j off : Nat) (bs : List Byte) :
    SameContents slots slots' (memWrite store j off bs) (memWrite store' j off bs) :=
  { h with
    held := fun i c d hc hd hvalid => by
      obtain ⟨hkey, hrecency, hbytes⟩ := h.held i c d hc hd hvalid
      refine ⟨hkey, hrecency, fun k hk => ?_⟩
      rw [memWrite, memWrite, Memory.read_writeRun, Memory.read_writeRun, hbytes k hk] }

/-- A fill gives one content to the slot in both arrays. -/
theorem fill (h : SameContents slots slots' store store') (v : Nat) (c : Slot) (p : Payload) :
    SameContents (slots.set v c) (slots'.set v c) (memWrite store v 0 (payloadBytes blockSize p))
      (memWrite store' v 0 (payloadBytes blockSize p)) where
  length := by simpa using h.length
  valid := fun i d e hd he => by
    rcases getElem?_set_cases hd with ⟨rfl, rfl⟩ | ⟨hi, hd⟩
    · rw [eq_of_getElem?_set_self he]
    · rw [List.getElem?_set_ne (Ne.symm hi)] at he
      exact h.valid i d e hd he
  held := fun i d e hd he hvalid => by
    rcases getElem?_set_cases hd with ⟨rfl, rfl⟩ | ⟨hi, hd⟩
    · rw [eq_of_getElem?_set_self he]
      refine ⟨rfl, rfl, fun k hk => ?_⟩
      have hin : 0 ≤ k ∧ k < 0 + blockSize := ⟨Nat.zero_le k, by omega⟩
      rw [read_memWrite_payloadBytes, read_memWrite_payloadBytes, if_pos hin, if_pos hin]
    · rw [List.getElem?_set_ne (Ne.symm hi)] at he
      exact (h.write v 0 (payloadBytes blockSize p)).held i d e hd he hvalid

end SameContents

/-- `s` with another slot array and other bytes. -/
def withContents (s : State) (slots : List Slot) (store : Memory) : State :=
  { s with slots := slots, store := store }

theorem withContents_slots (s : State) (slots : List Slot) (store : Memory) :
    (withContents s slots store).slots = slots :=
  rfl

/-- Agreeing states are one state with two contents that are the same but for the empty slots. -/
theorem agreeOnValid_iff {s s' : State} :
    AgreeOnValid s s' ↔
      s' = withContents s s'.slots s'.store ∧ SameContents s.slots s'.slots s.store s'.store := by
  constructor
  · intro h
    refine ⟨?_, h.length, h.valid, h.held⟩
    obtain ⟨⟨hstate, hgcount, hhits, hmisses, hfault⟩, hrsp, hport, hdraws, -, -, -⟩ := h
    cases s'
    simp only [withContents, State.mk.injEq] at *
    exact ⟨hstate, hgcount, hhits, hmisses, hfault, trivial, trivial, hrsp, hport, hdraws⟩
  · rintro ⟨hs', h⟩
    generalize s'.slots = slots, s'.store = store at hs' h
    subst hs'
    exact ⟨⟨rfl, rfl, rfl, rfl, rfl⟩, rfl, rfl, rfl, h.length, h.valid, h.held⟩

/-- Two outcomes agree: next states that agree on valid slots, or one fault, or one refusal. -/
def OutcomesAgree : Host.Outcome State Fault Refusal → Host.Outcome State Fault Refusal → Prop
  | .next t, .next t' => AgreeOnValid t t'
  | .fault r, .fault r' => r = r'
  | .refused r, .refused r' => r = r'
  | _, _ => False

theorem OutcomesAgree.exists_next {o o' : Host.Outcome State Fault Refusal} {t : State} (h : OutcomesAgree o o')
    (ho : o = .next t) : ∃ t', o' = .next t' ∧ AgreeOnValid t t' := by
  subst ho
  cases o' with
  | next t' => exact ⟨t', rfl, h⟩
  | fault => exact h.elim
  | refused => exact h.elim

section

variable {s : State} {slots : List Slot} {store : Memory}

/-- A response reads of the contents only the number of slots. -/
theorem respond_agree (h : SameContents s.slots slots s.store store) (status : BitVec 4) (d : Driven) :
    AgreeOnValid (respond s status d) (respond (withContents s slots store) status d) where
  registers := ⟨rfl, rfl, rfl, rfl, rfl⟩
  rsp := by simp [responseOf, withContents, h.length]
  port := rfl
  draws := rfl
  length := h.length
  valid := h.valid
  held := h.held

theorem finish_agree (h : SameContents s.slots slots s.store store) (d : Driven) :
    OutcomesAgree (finish s d) (finish (withContents s slots store) d) :=
  respond_agree h statusOk d

theorem raiseError_agree (h : SameContents s.slots slots s.store store) (e : ErrorCode) :
    OutcomesAgree (raiseError e s) (raiseError e (withContents s slots store)) :=
  respond_agree (s := setFault e s) h e.status {}

/-- A check that reads no contents falls out alike. -/
theorem ite_agree {c : Prop} [Decidable c] {a a' b b' : Host.Outcome State Fault Refusal} (ha : OutcomesAgree a a')
    (hb : OutcomesAgree b b') : OutcomesAgree (if c then a else b) (if c then a' else b') := by
  by_cases hc : c
  · rwa [if_pos hc, if_pos hc]
  · rwa [if_neg hc, if_neg hc]

theorem whenReady_agree (h : SameContents s.slots slots s.store store) {body body' : Host.Outcome State Fault Refusal}
    (hbody : OutcomesAgree body body') :
    OutcomesAgree (whenReady s body) (whenReady (withContents s slots store) body') := by
  cases hstate : s.state with
  | unallocated =>
    rw [whenReady_of_unallocated hstate, whenReady_of_unallocated (s := withContents s slots store) hstate]
    exact raiseError_agree h .notReady
  | ready =>
    rw [whenReady_of_ready hstate, whenReady_of_ready (s := withContents s slots store) hstate]
    exact hbody

theorem execCinit_agree (h : SameContents s.slots slots s.store store) :
    OutcomesAgree (execCinit s) (execCinit (withContents s slots store)) := by
  cases hstate : s.state with
  | unallocated =>
    have he := exec_cinit_of_unallocated hstate
    have he' := exec_cinit_of_unallocated (s := withContents s slots store) hstate
    change execCinit _ = _ at he he'
    rw [he, he']
    exact finish_agree (s := allocate s) h.invalidateAll {}
  | ready =>
    have he := exec_cinit_of_ready hstate
    have he' := exec_cinit_of_ready (s := withContents s slots store) hstate
    change execCinit _ = _ at he he'
    rw [he, he']
    exact raiseError_agree h .alreadyReady

theorem execLookup_agree (h : SameContents s.slots slots s.store store) (k : Key) :
    OutcomesAgree (execLookup k s) (execLookup k (withContents s slots store)) := by
  refine whenReady_agree h ?_
  rw [withContents_slots, h.firstMatch_eq k]
  cases hit : firstMatch k s.slots with
  | none => exact ite_agree (raiseError_agree h .overflow) (finish_agree (s := countMiss s) h _)
  | some j =>
    refine ite_agree (raiseError_agree h .overflow) ?_
    have hdriven : hitDriven j (withContents s slots store) = hitDriven j s := by
      simp only [hitDriven, withContents, h.memRead_eq hit]
    change OutcomesAgree (finish (countHit j s) (hitDriven j s))
      (finish (countHit j (withContents s slots store)) (hitDriven j (withContents s slots store)))
    rw [hdriven]
    exact finish_agree (s := countHit j s) (h.modify_recency j (s.gcount + 1)) _

theorem execInsert_agree (h : SameContents s.slots slots s.store store) (k : Key) (p : Payload) :
    OutcomesAgree (execInsert k p s) (execInsert k p (withContents s slots store)) := by
  refine whenReady_agree h ?_
  rw [withContents_slots, h.victim_eq]
  refine ite_agree (raiseError_agree h .overflow) ?_
  cases victim s.slots with
  | none => exact rfl
  | some v => exact finish_agree (s := fillSlot v k p s) (h.fill v _ p) _

theorem execPatch_agree (h : SameContents s.slots slots s.store store) (k : Key) (offset : BitVec 8) (len : BitVec 9)
    (p : Payload) :
    OutcomesAgree (execPatch k offset len p s) (execPatch k offset len p (withContents s slots store)) := by
  refine whenReady_agree h ?_
  rw [withContents_slots, h.firstMatch_eq k]
  refine ite_agree (raiseError_agree h .range) ?_
  cases firstMatch k s.slots with
  | none => exact finish_agree h _
  | some j => exact finish_agree (s := patchSlot j offset len p s) (h.write j offset.toNat _) _

theorem exec_agree (h : SameContents s.slots slots s.store store) (i : Instr) :
    OutcomesAgree (exec i s) (exec i (withContents s slots store)) := by
  cases i with
  | encode => exact finish_agree h _
  | decode => exact finish_agree h _
  | isok => exact finish_agree h _
  | cinit => exact execCinit_agree h
  | lookup k => exact execLookup_agree h k
  | insert k p => exact execInsert_agree h k p
  | patch k offset len p => exact execPatch_agree h k offset len p
  | stats => exact whenReady_agree h (finish_agree h _)
  | cshut => exact whenReady_agree h (finish_agree (s := release s) h.invalidateAll _)

/-- Which command a request is does not depend on the state, so requests agree as their commands do. -/
theorem performRequest_agree (h : SameContents s.slots slots s.store store) (q : Request) :
    OutcomesAgree (performRequest q s) (performRequest q (withContents s slots store)) := by
  rcases performRequest_cases q s with ⟨i, -, hdecode, hexec⟩ | ⟨hreserved, hillegal⟩
  · rw [hexec, performRequest_of_decode hdecode]
    exact exec_agree h i
  · rw [hillegal, performRequest_of_reservedOp ((wellFormed_eq_false_iff q).mp hreserved)]
    exact raiseError_agree h .illegalOp

/-- Reset reads of the contents only the number of slots. -/
theorem applyReset_withContents (h : slots.length = s.slots.length) :
    applyReset (withContents s slots store) = applyReset s := by
  simp [applyReset, withContents, h]

theorem step_agree (h : SameContents s.slots slots s.store store) :
    OutcomesAgree (step s) (step (withContents s slots store)) := by
  cases hport : s.port with
  | nil =>
    rw [step_of_noEvent hport, step_of_noEvent (s := withContents s slots store) hport]
    exact agreeOnValid_iff.mpr ⟨rfl, h⟩
  | cons e rest =>
    cases e with
    | request q =>
      rw [step_of_request hport, step_of_request (s := withContents s slots store) hport]
      exact performRequest_agree (s := { s with port := rest }) h q
    | overlap q q' =>
      rw [step_of_overlap hport, step_of_overlap (s := withContents s slots store) hport]
      exact rfl
    | reset o =>
      rw [step_of_reset hport, step_of_reset (s := withContents s slots store) hport]
      have hreset : applyReset { withContents s slots store with port := rest } = applyReset { s with port := rest } :=
        applyReset_withContents (s := { s with port := rest }) h.length
      rw [hreset]
      exact agreeOnValid_iff.mpr ⟨rfl, .refl _ _⟩

end

end Sys2Proof.Machine
end

section
open Sys2Proof Sys2Proof.Machine

/-- Settles O45: every scan, every effect and every response is the same for two contents that differ in empty slots
only. -/
theorem invalidSlotContentsAreUnread : Obligations.InvalidSlotContentsAreUnread := by
  unfold Obligations.InvalidSlotContentsAreUnread
  intro s s' t hagree h
  obtain ⟨hs', hsame⟩ := agreeOnValid_iff.mp hagree
  rw [hs']
  exact (step_agree hsame).exists_next h

end

section
/-! SUPPORT. Commands in sequence (R136, R147, R148, R161, R162, R165, R167): the key match and the bytes after a fill, a
touch and a patch, and payloads byte by byte. -/

namespace Sys2Proof.Machine

variable {s t : State} {k : Key}

/-- A response with status OK is no error's. -/
theorem ErrorCode.not_ok {e : ErrorCode} {r : Response} {d : Driven}
    (hr : (respond s e.status d).rsp = some r) (hok : r.status = 0) : False := by
  cases hr
  exact e.status_ne_zero hok

/-- A fill with `k` leaves no match for a key that had none and is not `k`. -/
theorem firstMatch_fillSlot_other {k' : Key} (hmiss : firstMatch k' s.slots = none) (hne : k' ≠ k) (v : Nat)
    (p : Payload) : firstMatch k' (fillSlot v k p s).slots = none := by
  rw [firstMatch_eq_none_iff_not_resident] at hmiss ⊢
  intro c hc
  rcases List.mem_or_eq_of_mem_set hc with hold | rfl
  · exact hmiss c hold
  · exact fun ⟨_, hkey⟩ => hne hkey.symm

/-- After a fill of slot `v` with `k` the match is `v`, or an earlier slot that held `k` before (R147). -/
theorem firstMatch_fillSlot {v : Nat} (hv : v < s.slots.length) (k : Key) (p : Payload) :
    firstMatch k (fillSlot v k p s).slots = some ((firstMatch k s.slots).elim v (min · v)) :=
  firstMatch_set_holding hv ((Slot.holds_iff _ k).mpr ⟨rfl, rfl⟩)

theorem firstMatch_countHit (j : Nat) : firstMatch k (countHit j s).slots = firstMatch k s.slots :=
  firstMatch_modify_recency k j (s.gcount + 1) s.slots

theorem firstMatch_of_empty (h : ∀ c ∈ s.slots, c.valid = false) (k : Key) : firstMatch k s.slots = none :=
  (firstMatch_eq_none_iff_not_resident k s.slots).mpr fun c hc ⟨hvalid, _⟩ => by simp [h c hc] at hvalid

/-- The bytes of slot `i` after a PATCH that hit it (R150). -/
theorem slotByte_patchSlot (i : Nat) (offset : BitVec 8) (len : BitVec 9) (p : Payload) (s : State) (n : Nat) :
    slotByte (patchSlot i offset len p s) i n =
      if offset.toNat ≤ n ∧ n < offset.toNat + len.toNat then payloadByte p (n - offset.toNat) else slotByte s i n :=
  read_memWrite_payloadBytes s.store i offset.toNat len.toNat n p

/-- A payload is its 256 bytes (R55). -/
theorem eq_of_payloadByte_eq {p q : Payload} (h : ∀ n, n < blockSize → payloadByte p n = payloadByte q n) : p = q := by
  apply BitVec.eq_of_getLsbD_eq
  intro i hi
  have hbit := congrArg (fun b => b.getLsbD (i % 8)) (h (i / 8) (by simp only [blockSize]; omega))
  simpa [payloadByte, Nat.mod_lt, Nat.div_add_mod] using hbit

/-- The snapshot of a slot whose bytes are a payload's is the payload. -/
theorem payload_snapshot {i : Nat} {p : Payload} (h : ∀ n, n < blockSize → slotByte s i n = payloadByte p n) :
    payloadOfBytes (memRead s.store i 0 blockSize) = p :=
  eq_of_payloadByte_eq fun n hn => (payloadByte_snapshot s i hn).trans (h n hn)

/-- The bytes of a block with a run laid over it (R162). -/
theorem payloadByte_overlayRun (base bytes : Payload) (offset len : Nat) {n : Nat} (hn : n < blockSize) :
    payloadByte (overlayRun base offset len bytes) n =
      if offset ≤ n ∧ n < offset + len then payloadByte bytes (n - offset) else payloadByte base n := by
  rw [overlayRun, payloadByte_payloadOfBytes _ hn, List.getD_eq_getElem?_getD, List.getElem?_map,
    List.getElem?_range hn]
  rfl

/-- In a full cache that meets the invariant the victim's recency is strictly the smallest (R33, R148). -/
theorem victim_recency_lt (hinv : Inv s) (hfull : ∀ c ∈ s.slots, c.valid = true) {v : Nat}
    (hv : victim s.slots = some v) :
    ∃ c, s.slots[v]? = some c ∧ ∀ (j : Nat) (d : Slot), j ≠ v → s.slots[j]? = some d → c.recency < d.recency := by
  obtain ⟨w, c, hw, hc, hmin⟩ := victim_of_full hinv.capacity ((firstEmpty_eq_none_iff s.slots).mpr hfull)
  cases hv.symm.trans hw
  refine ⟨c, hc, fun j d hj hd => ?_⟩
  obtain ⟨hle, -⟩ := hmin j d hd
  have hne : c.recency ≠ d.recency := fun heq =>
    hj (hinv.recencyDistinct j v d c hd hc (hfull d (List.mem_of_getElem? hd)) (hfull c (List.mem_of_getElem? hc))
      heq.symm)
  bv_omega

end Sys2Proof.Machine
end

section
open Sys2Proof Sys2Proof.Machine

/-- Settles O47: an INSERT that performs is a fill of its victim. -/
theorem insertOfResidentKey : Obligations.InsertOfResidentKey := by
  unfold Obligations.InsertOfResidentKey
  intro s t k p j r hj h hr hok
  cases exec_effect h with
  | error => exact (ErrorCode.not_ok hr hok).elim
  | @fills _ _ v _ hgcount hv =>
    cases hr
    have htouched := fillSlot_touchedSlot (victim_lt hv) k p
    have hmatch : firstMatch k (fillSlot v k p s).slots = some (min j v) := by
      rw [firstMatch_fillSlot (victim_lt hv), hj]
      rfl
    exact ⟨hv, by simp [responseOf, victim_lt hv], htouched.toNat_gcount hgcount, hmatch,
      fun _ => slotByte_fillSlot v k p s, fun hne => ⟨htouched.others j (Ne.symm hne),
        fun _ => slotByte_fillSlot_other (Ne.symm hne) k p s⟩⟩

/-- Settles O48: after the fill the inserted key matches in the filled slot, and the other absent key still nowhere. -/
theorem insertThenLookup : Obligations.InsertThenLookup := by
  unfold Obligations.InsertThenLookup
  rintro s k k' p hready ⟨c, hc, -⟩ hnew hnew' hne hgcount hhits hmisses
  obtain ⟨v, hv⟩ := exists_victim (List.ne_nil_of_mem hc)
  have hmax : s.gcount ≠ maxCount := by bv_omega
  have hmax' : s.gcount + 1 ≠ maxCount := by bv_omega
  have hit : firstMatch k (fillSlot v k p s).slots = some v := by
    rw [firstMatch_fillSlot (victim_lt hv), hnew]
    rfl
  have hmiss : firstMatch k' (fillSlot v k p s).slots = none := firstMatch_fillSlot_other hnew' hne v p
  let t := respond (fillSlot v k p s) statusOk { slot := some v }
  refine ⟨t, exec_insert_of_victim hready hmax hv p,
    ⟨_, _, exec_lookup_of_hit (s := t) hready hit hmax' hhits, rfl, rfl, rfl, ?_, toNat_add_one hhits, rfl⟩,
    ⟨_, _, exec_lookup_of_miss (s := t) hready hmiss hmisses, rfl, rfl, rfl, rfl, toNat_add_one hmisses⟩⟩
  exact payload_snapshot fun _ => slotByte_fillSlot v k p s

/-- Settles O49: PATCH changes no key and no counter, so both LOOKUPs hit the slot that it wrote. -/
theorem patchThenLookup : Obligations.PatchThenLookup := by
  unfold Obligations.PatchThenLookup
  intro s t u w k offset len p r ru rw ht hr hok hflag hu hru hruok hw hrw
  cases exec_effect ht with
  | error => exact (ErrorCode.not_ok hr hok).elim
  | patchMisses => cases hr; cases hflag
  | @patches _ _ _ _ j hready hfits hit =>
    cases hr
    cases exec_effect hu with
    | error => exact (ErrorCode.not_ok hru hruok).elim
    | misses _ hmiss => cases hit.symm.trans hmiss
    | hits _ hit' hgcount hhits =>
      cases hit.symm.trans hit'
      cases next_unique hw (exec_lookup_of_hit hready hit hgcount hhits)
      cases hru
      cases hrw
      refine ⟨rfl, rfl, fun n hn => ?_⟩
      calc payloadByte (payloadOfBytes (memRead (patchSlot j offset len p s).store j 0 blockSize)) n
        _ = slotByte (patchSlot j offset len p s) j n := payloadByte_snapshot _ j hn
        _ = _ := slotByte_patchSlot j offset len p s n
        _ = _ := by rw [← payloadByte_snapshot s j hn]; rfl

/-- Settles O50: CINIT empties every slot, only a fill makes one valid, and with none valid no key matches. -/
theorem coldCacheMisses : Obligations.ColdCacheMisses := by
  unfold Obligations.ColdCacheMisses
  refine ⟨fun s t hun h => ?_, fun i s t hempty hi h => ?_, fun s k offset len p hready hempty => ⟨fun hmax => ?_,
    fun hfits => ?_⟩⟩
  · rw [next_unique h (exec_cinit_of_unallocated hun)]
    exact fun _ => valid_of_mem_invalidateAll
  · rcases (exec_effect h).keepsKeys with hkeeps | ⟨k, p, -, hinsert, -⟩
    · exact hkeeps.empty hempty
    · exact absurd hinsert (hi k p)
  · exact ⟨_, _, exec_lookup_of_miss hready (firstMatch_of_empty hempty k) hmax, rfl, rfl, rfl⟩
  · exact ⟨_, _, exec_patch_of_miss hready hfits (firstMatch_of_empty hempty k) p, rfl, rfl, rfl⟩

/-- Settles O51: the victim's recency is strictly the smallest, and another slot's is at most GCOUNT. -/
theorem mostRecentIsNeverEvicted : Obligations.MostRecentIsNeverEvicted := by
  unfold Obligations.MostRecentIsNeverEvicted
  intro s t k p r hinv hfull h hr hok
  cases exec_effect h with
  | error => exact (ErrorCode.not_ok hr hok).elim
  | @fills _ _ v _ _ hv =>
    cases hr
    obtain ⟨c, hc, hleast⟩ := victim_recency_lt hinv hfull hv
    refine ⟨c, hc, hleast, fun htwo => ?_⟩
    obtain ⟨j, hj, hjv⟩ : ∃ j, j < s.slots.length ∧ j ≠ v := ⟨if v = 0 then 1 else 0, by split <;> omega⟩
    have hd : s.slots[j]? = some s.slots[j] := by simp [hj]
    have hlt := hleast j _ hjv hd
    obtain ⟨-, hle⟩ := hinv.recencyRange _ (List.getElem_mem hj) (hfull _ (List.getElem_mem hj))
    bv_omega

/-- Settles O54: the two paths INSERT only after a miss, which changes no slot. -/
theorem readAndWritePathsRespectResidency : Obligations.ReadAndWritePathsRespectResidency := by
  unfold Obligations.ReadAndWritePathsRespectResidency
  intro s t k r offset len bytes block h hr hok
  cases exec_effect h with
  | error => exact (ErrorCode.not_ok hr hok).elim
  | misses _ hmiss =>
    cases hr
    refine ⟨fun i hi => ?_, fun i hi => ?_⟩
    all_goals
      cases List.mem_singleton.mp hi
      intro k' p' hinsert
      cases hinsert
      exact hmiss
  | hits =>
    cases hr
    refine ⟨fun i hi => absurd hi List.not_mem_nil, fun i hi => ?_⟩
    cases List.mem_singleton.mp hi
    intro k' p' hinsert
    cases hinsert

/-- Settles O55: the LOOKUP's snapshot is the slot before the PATCH, and both lay the same run over it. -/
theorem writePathBlockEqualsSlot : Obligations.WritePathBlockEqualsSlot := by
  unfold Obligations.WritePathBlockEqualsSlot
  intro s t u k r ru offset len bytes block ht hr hok hflag hu hru hruok
  cases exec_effect ht with
  | error => exact (ErrorCode.not_ok hr hok).elim
  | misses => cases hr; cases hflag
  | @hits _ j _ hit =>
    cases hr
    have hit' : firstMatch k (countHit j s).slots = some j := (firstMatch_countHit j).trans hit
    cases exec_effect hu with
    | error => exact (ErrorCode.not_ok hru hruok).elim
    | patchMisses hmiss => cases hit'.symm.trans hmiss
    | patches _ _ hit'' =>
      cases hit'.symm.trans hit''
      cases hru
      refine ⟨rfl, rfl, fun n hn => ?_⟩
      calc payloadByte (overlayRun (payloadOfBytes (memRead s.store j 0 blockSize)) offset.toNat len.toNat bytes) n
        _ = _ := payloadByte_overlayRun _ bytes offset.toNat len.toNat hn
        _ = _ := by rw [payloadByte_snapshot s j hn]; rfl
        _ = slotByte (patchSlot j offset len bytes (countHit j s)) j n :=
          (slotByte_patchSlot j offset len bytes (countHit j s) n).symm

end

section
/-! SUPPORT. A run of INSERTs of distinct keys from a fresh READY block (R166): the slots fill in order, and the next INSERT
evicts slot 0. -/

namespace Sys2Proof.Machine

variable {s t : State} {ins : List (Key × Payload)} {n : Nat}

/-- The request that INSERTs a key with its block. -/
def insertEvent (kp : Key × Payload) : PortEvent :=
  .request (encodeRequest (.insert kp.1 kp.2))

/-- The first `n` INSERTs of `ins` have filled slots 0 to n-1 in order, the other slots are empty, and the INSERTs after
them wait at the port. -/
structure FilledInOrder (ins : List (Key × Payload)) (n : Nat) (s : State) : Prop where
  ready  : s.state = .ready
  gcount : s.gcount.toNat = n
  filled : ∀ i, i < n → ∃ c kp, s.slots[i]? = some c ∧ ins[i]? = some kp ∧ c.valid = true ∧ c.key = kp.1 ∧
    c.recency.toNat = i + 1
  empty  : ∀ (i : Nat) (c : Slot), n ≤ i → s.slots[i]? = some c → c.valid = false
  port   : s.port = (ins.drop n).map insertEvent

/-- A run that is one step longer ends one step later. -/
theorem core_run_succ_last {u : State} (h : Host.Core.run Sys2Proof.core n s = .next t) (hu : step t = .next u) :
    Host.Core.run Sys2Proof.core (n + 1) s = .next u := by
  induction n generalizing s with
  | zero =>
    cases h
    exact core_run_succ_of_next 0 hu
  | succ n ih =>
    obtain ⟨w, hw, hrun⟩ := core_run_succ_cases h
    rw [core_run_succ_of_next (n + 1) hw]
    exact ih hrun

namespace FilledInOrder

theorem gcount_ne_max (h : FilledInOrder ins n s) (hn : n < 2 ^ 64 - 1) : s.gcount ≠ maxCount := by
  have := h.gcount
  bv_omega

/-- The next INSERT performs, on the block's victim. -/
theorem step_fills (h : FilledInOrder ins n s) (hn : n < 2 ^ 64 - 1) {kp : Key × Payload} (hkp : ins[n]? = some kp)
    {v : Nat} (hv : victim s.slots = some v) :
    ∃ t, step s = .next t ∧ FilledSlot v kp.1 kp.2 { s with port := (ins.drop (n + 1)).map insertEvent } t := by
  have hport : s.port = insertEvent kp :: (ins.drop (n + 1)).map insertEvent := by
    obtain ⟨hlt, rfl⟩ := List.getElem?_eq_some_iff.mp hkp
    rw [h.port, List.drop_eq_getElem_cons hlt, List.map_cons]
  rw [step_of_request hport, performRequest_of_decode (decodeRequest_encodeRequest _)]
  exact exec_insert_fills (s := { s with port := (ins.drop (n + 1)).map insertEvent }) h.ready (h.gcount_ne_max hn) hv
    kp.1 kp.2

/-- The first empty slot is slot `n`. -/
theorem victim_eq (h : FilledInOrder ins n s) (hn : n < s.slots.length) : victim s.slots = some n := by
  refine victim_of_firstEmpty ((firstEmpty_eq_some_iff s.slots n).mpr
    ⟨⟨s.slots[n], by simp [hn], h.empty n _ (Nat.le_refl n) (by simp [hn])⟩, fun j d hj hd => ?_⟩)
  obtain ⟨c, -, hc, -, hvalid, -⟩ := h.filled j hj
  cases hc.symm.trans hd
  exact hvalid

/-- A fill of slot `n` with the next key fills one slot more. -/
theorem succ (h : FilledInOrder ins n s) {kp : Key × Payload} (hkp : ins[n]? = some kp)
    (ht : FilledSlot n kp.1 kp.2 { s with port := (ins.drop (n + 1)).map insertEvent } t) :
    FilledInOrder ins (n + 1) t := by
  have hgcount : t.gcount.toNat = n + 1 := ht.gcount.trans (by rw [h.gcount])
  refine ⟨ht.state.trans h.ready, hgcount, fun i hi => ?_, fun i c hi hc => ?_, ht.port⟩
  · by_cases hin : i = n
    · subst hin
      exact ⟨_, kp, ht.slot, hkp, rfl, rfl, hgcount⟩
    · rw [ht.others i hin]
      exact h.filled i (by omega)
  · rw [ht.others i (by omega)] at hc
    exact h.empty i c (by omega) hc

/-- With every slot filled, the victim is slot 0: its recency is 1, and the others' are higher. -/
theorem victim_of_all (h : FilledInOrder ins s.slots.length s) (hs : s.slots ≠ []) : victim s.slots = some 0 := by
  obtain ⟨c, -, hc, -, -, -, hrecency⟩ := h.filled 0 (List.length_pos_of_ne_nil hs)
  have hmem : ∀ d ∈ s.slots, d.valid = true ∧ c.recency ≤ d.recency := by
    intro d hd
    obtain ⟨i, hi⟩ := exists_getElem?_of_mem hd
    obtain ⟨e, -, he, -, hvalid, -, hrec⟩ := h.filled i (List.getElem?_eq_some_iff.mp hi).1
    cases hi.symm.trans he
    exact ⟨hvalid, by bv_omega⟩
  exact victim_of_leastRecent (fun d hd => (hmem d hd).1) hc (fun d hd => (hmem d hd).2)
    fun j _ hj => absurd hj (Nat.not_lt_zero j)

/-- After all slots are filled and one key more has evicted slot 0, the first key is gone and every other is resident. -/
theorem firstMatch_eq_none_iff_first (h : FilledInOrder ins s.slots.length s) (hs : s.slots ≠ [])
    (hlength : ins.length = s.slots.length + 1) (hnodup : (ins.map Prod.fst).Nodup) {last : Key × Payload}
    (hlast : ins[s.slots.length]? = some last) {port : List PortEvent}
    (ht : FilledSlot 0 last.1 last.2 { s with port := port } t) {kp : Key × Payload} (hkp : ins[n]? = some kp) :
    firstMatch kp.1 t.slots = none ↔ n = 0 := by
  have hpos := List.length_pos_of_ne_nil hs
  have hinj : ∀ {i j : Nat} {a b : Key × Payload}, ins[i]? = some a → ins[j]? = some b → a.1 = b.1 → i = j := by
    intro i j a b ha hb hab
    have hi : i < (ins.map Prod.fst).length := by
      rw [List.length_map]
      exact (List.getElem?_eq_some_iff.mp ha).1
    exact (List.getElem?_inj hi hnodup).mp (by simp [ha, hb, hab])
  rw [firstMatch_eq_none_iff_not_resident]
  constructor
  · intro hnone
    by_contra hn
    have hlt := (List.getElem?_eq_some_iff.mp hkp).1
    by_cases hnlast : n = s.slots.length
    · subst hnlast
      cases hkp.symm.trans hlast
      exact hnone _ (List.mem_of_getElem? ht.slot) ⟨rfl, rfl⟩
    · obtain ⟨c, kp', hc, hkp', hvalid, hkey, -⟩ := h.filled n (by omega)
      cases hkp.symm.trans hkp'
      exact hnone c (List.mem_of_getElem? ((ht.others n hn).trans hc)) ⟨hvalid, hkey⟩
  · rintro rfl d hd ⟨-, hkey⟩
    obtain ⟨i, hi⟩ := exists_getElem?_of_mem hd
    by_cases hi0 : i = 0
    · subst hi0
      cases ht.slot.symm.trans hi
      exact absurd (hinj hlast hkp hkey) (by omega)
    · rw [ht.others i hi0] at hi
      obtain ⟨c, kp', hc, hkp', -, hkey', -⟩ := h.filled i (List.getElem?_eq_some_iff.mp hi).1
      cases hc.symm.trans hi
      exact hi0 (hinj hkp' hkp (hkey'.symm.trans hkey))

/-- While there is an empty slot, the next INSERT fills slot `n`. -/
theorem exists_step (h : FilledInOrder ins n s) (hn : n < s.slots.length) (hmax : s.slots.length < 2 ^ 64 - 1)
    (hlength : ins.length = s.slots.length + 1) :
    ∃ kp t, ins[n]? = some kp ∧ step s = .next t ∧
      FilledSlot n kp.1 kp.2 { s with port := (ins.drop (n + 1)).map insertEvent } t := by
  have hkp : ins[n]? = some ins[n] := by simp
  obtain ⟨t, ht, hfilled⟩ := h.step_fills (by omega) hkp (h.victim_eq hn)
  exact ⟨_, t, hkp, ht, hfilled⟩

/-- From a fresh block, `n` INSERTs fill `n` slots in order. -/
theorem exists_run (h : FilledInOrder ins 0 s) (hmax : s.slots.length < 2 ^ 64 - 1)
    (hlength : ins.length = s.slots.length + 1) (hn : n ≤ s.slots.length) :
    ∃ t : State, Host.Core.run Sys2Proof.core n s = .next t ∧ FilledInOrder ins n t ∧
      t.slots.length = s.slots.length := by
  induction n with
  | zero => exact ⟨s, rfl, h, rfl⟩
  | succ n ih =>
    obtain ⟨t, hrun, ht, hslots⟩ := ih (by omega)
    rw [← hslots] at hmax hlength hn ⊢
    obtain ⟨kp, u, hkp, hu, hfilled⟩ := ht.exists_step hn hmax hlength
    exact ⟨u, core_run_succ_last hrun hu, ht.succ hkp hfilled, hfilled.length⟩

end FilledInOrder

end Sys2Proof.Machine
end

section
open Sys2Proof Sys2Proof.Machine

/-- Settles O52: after n INSERTs the first n slots are filled in order, so the next fills slot n, and after all slots
slot 0 is least recent. -/
theorem fillsInOrderThenEvictsFirst : Obligations.FillsInOrderThenEvictsFirst := by
  unfold Obligations.FillsInOrderThenEvictsFirst
  intro s ins hready hgcount hslots hmax hempty hlength hnodup hport
  have hfresh : FilledInOrder ins 0 s :=
    ⟨hready, by rw [hgcount]; rfl, fun i hi => absurd hi (Nat.not_lt_zero i),
      fun i c _ hc => hempty c (List.mem_of_getElem? hc), hport⟩
  refine ⟨fun n hn => ?_, ?_⟩
  · obtain ⟨t, hrun, ht, hkept⟩ := hfresh.exists_run hmax hlength (Nat.le_of_lt hn)
    rw [← hkept] at hmax hlength hn
    obtain ⟨kp, u, -, hu, hfilled⟩ := ht.exists_step hn hmax hlength
    obtain ⟨r, hr, hok, hslot, -⟩ := hfilled.rsp
    exact ⟨u, r, core_run_succ_last hrun hu, hr, hok, hslot⟩
  · obtain ⟨t, hrun, ht, hkept⟩ := hfresh.exists_run hmax hlength (Nat.le_refl _)
    have hne : t.slots ≠ [] := List.ne_nil_of_length_pos (hkept ▸ List.length_pos_of_ne_nil hslots)
    rw [← hkept] at ht hmax hlength hrun ⊢
    have hlast : ins[t.slots.length]? = some ins[t.slots.length] := by simp
    obtain ⟨u, hu, hfilled⟩ := ht.step_fills hmax hlast (ht.victim_of_all hne)
    obtain ⟨r, hr, hok, hslot, -⟩ := hfilled.rsp
    exact ⟨u, r, core_run_succ_last hrun hu, hr, hok, hslot, fun n kp hkp =>
      ht.firstMatch_eq_none_iff_first hne hlength hnodup hlast hfilled hkp⟩

end
